-- ==== Sys2Proof/Word.lean ====
section
/-! DEFINITION. The word types of the core (rule R7: bytes and 32-bit registers). Everything that orders
bytes or picks bit fields stands in Machine/Bits.lean. -/

namespace Sys2Proof

/-- A byte: an integer 0 to 255 (rule R11). -/
abbrev Byte := BitVec 8

/-- A 32-bit register of the window (rules R29, R61). -/
abbrev Word := BitVec 32

end Sys2Proof
end

