-- ==== Sys2Proof/Config.lean ====
section
/-! DEFINITION. What one implementation fixes: the numeric parameters of rule R8, the open parameters
`Digest`, `DICT` and `REQ_NONEMPTY`, and the two free values (rules R70, R210; R13 names no other). An `opaque`
constant without a body is a value that nothing in Lean can evaluate or prove. -/

namespace Sys2Proof

/-- `SEQ_W`, the width of `SEQ` (rule R8). -/
abbrev Config.seqW : Nat := 32
/-- `SEED_MAX`, the capacity of `SEEDBUF` in bytes (rule R8). -/
abbrev Config.seedMax : Nat := 256
/-- `PASS_MAX`, the capacity of `PASSBUF` in bytes (rule R8). -/
abbrev Config.passMax : Nat := 256
/-- `WORD_MAX`, the greatest length in bytes of a dictionary word (rule R8). -/
abbrev Config.wordMax : Nat := 4
/-- `STR_MAX = 6 * WORD_MAX + 5`, the capacity of `OTPSTR` in bytes (rule R8). -/
abbrev Config.strMax : Nat := 29
/-- The number of entries `DICT` must have (rule R7). -/
abbrev Config.dictSize : Nat := 2048
/-- `CORE_ID`, the constant value of `ID` (rule R36). -/
abbrev Config.coreId : Word := 0x4F545031#32
/-- What a byte of memory that nothing has written reads as: every buffer byte is 0 after reset (rule R40). -/
abbrev Config.unwritten : Byte := 0#8

/-- A word of the dictionary as rules R8 and R150 ask it to be: not empty, at most `WORD_MAX` bytes, ASCII. -/
def wordOk (w : List Byte) : Bool :=
  decide (1 ≤ w.length) && decide (w.length ≤ Config.wordMax) && w.all (fun b => decide (b.toNat < 128))

/-- A well-formed dictionary (rules R8, R150): 2048 entries, each as it should be, pairwise distinct. -/
def dictOk (d : List (List Byte)) : Bool :=
  d.length == Config.dictSize && d.all wordOk && decide d.Nodup

/-- A dictionary that is a configuration of the model (U6): of another size than 2048 with any entries at all,
or well formed. One of 2048 entries that breaks another premise of rule R150 is refused. -/
def dictInside (d : List (List Byte)) : Bool := d.length != Config.dictSize || dictOk d

/-- `DICT` (rules R8, R38): the dictionary ROM, a list of byte strings inside the model (U6). (The defaults show
that there is one; no definition uses them.) -/
structure Dictionary where
  /-- entry `i` is `DICT[i]` -/
  entries : List (List Byte) := []
  /-- the premise of rule R150 on a dictionary of 2048 entries -/
  inside : dictInside entries = true := by rfl
  deriving DecidableEq, Repr, Inhabited

/-- The open parameters of rule R8 that are plain data. `State` carries one such record: no command and no
reset changes it (rule R39), and every statement about all states speaks of every configuration. -/
structure Params where
  /-- `DICT` (rule R38) -/
  dict : Dictionary
  /-- `REQ_NONEMPTY` (rule R171 (c)): is an empty seed or passphrase an `InvalidArgument`? -/
  reqNonempty : Bool
  deriving DecidableEq, Repr

/-- `Digest(alg, M)` (rule R110): the Digest Provider, an uninterpreted pure function into 16 bytes. The core
never invokes it with an unsupported selector (rule R111). -/
opaque Config.digest : Word → List Byte → Vector Byte 16
/-- `DICT` of this chip (rules R38, R150; D18): open. -/
opaque Config.dict : Dictionary
/-- `REQ_NONEMPTY` of this chip (D8): open. -/
opaque Config.reqNonempty : Bool
/-- Free value (rule R70, U1): the word a read of a working or result register returns while a command runs,
one for each draw. -/
opaque Config.freeRead : Nat → Word
/-- Free value (rule R210, U10): how many host transactions pass between the acceptance of a command and its
completion, one for each draw. -/
opaque Config.freeLatency : Nat → Nat

/-- The open parameters of this chip, as data. -/
def Config.params : Params := { dict := Config.dict, reqNonempty := Config.reqNonempty }

end Sys2Proof
end

