-- ==== Sys2Proof/Syntax.lean ====
section
/-! DEFINITION. The ten commands (rule R92), the names of the window's registers (rule R61), the host's
transactions (rule R62) and the host notation (rules R99, R100). -/

namespace Sys2Proof

/-- The ten commands, one constructor per row of the opcode table (rule R92). A command word carries no
operand (rule R91), so no constructor has an argument. -/
inductive Instr where
  /-- `HASH0` (rule R113): digest of seed and passphrase. -/
  | hash0
  /-- `XTR` (rule R122): Register Extractor. -/
  | xtr
  /-- `FOLD` (rule R125): Register Folder. -/
  | fold
  /-- `REHASH` (rule R114): digest of the current fold. -/
  | rehash
  /-- `ENC64` (rule R141): Long Encoder. -/
  | enc64
  /-- `WENC` (rule R152): Parity / Word Encoder. -/
  | wenc
  /-- `CHAIN` (rule R131): Hash-Chain Engine. -/
  | chain
  /-- `DERIVE` (rule R160): the whole derivation. -/
  | derive
  /-- `STEP` (rule R132): one hash-then-fold round. -/
  | step
  /-- `SRST` (rule R162): soft reset. -/
  | srst
  deriving DecidableEq, Repr

/-- Why a 32-bit word is no command word (rules R90, R93). -/
inductive DecodeError where
  /-- A bit of the field `ZERO`, bits 31:8, is not zero. -/
  | zeroFieldNotZero
  /-- `ZERO` is zero and `OPC`, bits 7:0, is none of the ten opcodes. -/
  | noSuchOpcode
  deriving DecidableEq, Repr

/-- The sequencer phase `pc` (rule R22). -/
inductive Phase where
  | idle
  | run
  | error
  deriving DecidableEq, Repr

/-- The errors a command word can raise (rule R170). -/
inductive ErrorCode where
  /-- Code 1 (rule R171). -/
  | invalidArgument
  /-- Code 2 (rule R172). -/
  | unsupportedAlgorithm
  /-- Code 3 (rule R173). -/
  | dictionaryConfiguration
  /-- Code 4 (rule R174). -/
  | illegalCommand
  deriving DecidableEq, Repr

/-- One 32-bit word of the register window (rule R61); a word of a byte array carries its index `j`. -/
inductive Slot where
  | id
  | cmd
  | status
  | alg
  | seq
  | seedLen
  | passLen
  | nfold
  | nrehash
  /-- `DIGEST0 .. DIGEST3` -/
  | digest (j : Fin 4)
  | aa
  | bb
  | cc
  | dd
  /-- `FOLD0`, `FOLD1` -/
  | fold (j : Fin 2)
  | valueLo
  | valueHi
  | parity
  | otpLen
  /-- `IDX0 .. IDX5` -/
  | idx (j : Fin 6)
  /-- the `OTPSTR` window -/
  | otpStr (j : Fin 16)
  /-- the `SEEDBUF` window -/
  | seedBuf (j : Fin 64)
  /-- the `PASSBUF` window -/
  | passBuf (j : Fin 64)
  /-- an offset that holds no register (rule R66) -/
  | reserved
  deriving DecidableEq, Repr

/-- The host's right on a register (rules R61, R67). -/
inductive Access where
  /-- read-only: host writes are ignored -/
  | ro
  /-- write-only: host reads return 0 -/
  | wo
  /-- read-write -/
  | rw
  /-- reads as zero, writes ignored -/
  | razWi
  deriving DecidableEq, Repr

/-- What arrives at the core from outside: a request on the host interface (rule R62), or the reset input
(rule R200). A request names its width in bytes and its byte offset, so that a request that is no
transaction can be written down (and is refused). -/
inductive HostEvent where
  /-- `RegRead(off)`, if `bytes = 4` and `off` is an aligned offset of the window. -/
  | read (bytes off : Nat)
  /-- `RegWrite(off, v)`, under the same condition. -/
  | write (bytes off : Nat) (v : Word)
  /-- `WAIT` (rule R99): `RegRead(0x008)`, repeated until the word returned has `BUSY = 0`. -/
  | poll
  /-- The reset input (rule R200). -/
  | reset
  deriving DecidableEq, Repr

/-- A line of the host notation (rules R99, R100). A register is named by its word of the window. -/
inductive HostLine where
  /-- `WR NAME, value` -/
  | wr (r : Slot) (v : Word)
  /-- `RD NAME` -/
  | rd (r : Slot)
  /-- a bare mnemonic -/
  | command (i : Instr)
  /-- `WAIT` -/
  | wait
  /-- `SEED "text"`, the text as its bytes -/
  | seed (text : List Byte)
  /-- `PASS "text"` -/
  | pass (text : List Byte)
  /-- `RUN mnemonic` -/
  | run (i : Instr)
  deriving DecidableEq, Repr

end Sys2Proof
end

