-- ==== Sys2Proof/WellFormed.lean ====
section
/-! DEFINITION. What makes a term well formed: an instruction, a request on the host interface
(rule R62). That of a dictionary stands beside the parameter `DICT`, in `Config.lean`. -/

namespace Sys2Proof

/-- Every instruction is well formed: a command word has no operand field that could hold an illegal value
(rule R91). -/
def Instr.wf (_ : Instr) : Bool := true

/-- A width and an offset that are a transaction of the interface (rule R62): 32 bits wide, aligned, inside
the 4 KiB window. -/
def transactionOk (bytes off : Nat) : Bool :=
  bytes == 4 && off % 4 == 0 && decide (off ≤ 0xFFC)

/-- A request is well formed when it is a transaction of the interface (rule R62). -/
def HostEvent.wf : HostEvent → Bool
  | .read bytes off => transactionOk bytes off
  | .write bytes off _ => transactionOk bytes off
  | .poll => true
  | .reset => true

end Sys2Proof
end

