-- ==== Sys2Proof/Decode.lean ====
section
/-! DEFINITION. The command word: decoder and encoder (rules R90 to R93). -/

namespace Sys2Proof

/-- The opcode `OPC` of a command (rule R92). -/
def opcode : Instr → BitVec 8
  | .hash0 => 0x01#8
  | .xtr => 0x02#8
  | .fold => 0x03#8
  | .rehash => 0x04#8
  | .enc64 => 0x05#8
  | .wenc => 0x06#8
  | .chain => 0x10#8
  | .derive => 0x11#8
  | .step => 0x12#8
  | .srst => 0xFF#8

/-- The command an opcode names, read off the opcode map of rule R92. -/
def commandOfOpcode (o : BitVec 8) : Option Instr :=
  if o = 0x01#8 then some .hash0
  else if o = 0x02#8 then some .xtr
  else if o = 0x03#8 then some .fold
  else if o = 0x04#8 then some .rehash
  else if o = 0x05#8 then some .enc64
  else if o = 0x06#8 then some .wenc
  else if o = 0x10#8 then some .chain
  else if o = 0x11#8 then some .derive
  else if o = 0x12#8 then some .step
  else if o = 0xFF#8 then some .srst
  else none

/-- The field `ZERO`, bits 31:8 of the command word (rule R90). -/
def zeroField (w : Word) : BitVec 24 := w.extractLsb' 8 24

/-- The field `OPC`, bits 7:0 of the command word (rules R90, R97). -/
def opcField (w : Word) : BitVec 8 := w.extractLsb' 0 8

/-- Decoding of a command word (rules R90, R92, R93): total on every 32-bit word. -/
def decode (w : Word) : Except DecodeError Instr :=
  if zeroField w = 0#24 then
    match commandOfOpcode (opcField w) with
    | some i => .ok i
    | none => .error .noSuchOpcode
  else .error .zeroFieldNotZero

/-- The command word of a command (rule R92): `ZERO` above `OPC`. -/
def encode (i : Instr) : Word := (0#24 ++ opcode i : BitVec 32)

/-- The command the decoder reads from the opcode table's numbering of a row's bits: bit 0 is the least
significant bit of the one 32-bit command word (rule R90); no command is longer (rule R98). -/
def decodeTableWord (nbits w : Nat) : Option Instr :=
  if w % 2 ^ nbits < 2 ^ 32 then
    match decode (BitVec.ofNat 32 (w % 2 ^ nbits)) with
    | .ok i => some i
    | .error _ => none
  else none

end Sys2Proof
end

