-- ==== Sys2Proof/Machine/State.lean ====
section
/-! DEFINITION. The state of the core (rule R20), the reasons a step can stop, and the state after reset
(rule R40). State is plain data. -/

namespace Sys2Proof.Machine

/-- The byte buffers of the window, `OTPSTR`, `SEEDBUF` and `PASSBUF`, as (window address, byte) pairs:
addresses strictly rising, no entry equal to what an unlisted address reads as (`Config.unwritten`). -/
abbrev Memory := List Host.Cell

/-- `STATUS` (rule R21): its four fields; the reserved bits are not stored. -/
structure Status where
  busy : Bool
  done : Bool
  err : BitVec 4
  opc : BitVec 8
  deriving DecidableEq, Repr

/-- The request registers that are words (rules R23 to R25); `SEEDBUF` and `PASSBUF` are in `State.mem`. -/
structure Request where
  /-- `ALG` (rule R23) -/
  alg : Word
  /-- `SEQ` (rule R24) -/
  seq : Word
  /-- `SEEDLEN` (rule R25) -/
  seedLen : Word
  /-- `PASSLEN` (rule R25) -/
  passLen : Word
  deriving DecidableEq, Repr

/-- The four digest registers (rule R29). -/
structure Regs where
  aa : Word
  bb : Word
  cc : Word
  dd : Word
  deriving DecidableEq, Repr

/-- The working registers (rules R28 to R31). -/
structure Working where
  /-- `DIGEST` (rule R28) -/
  digest : Vector Byte 16
  /-- `AA`, `BB`, `CC`, `DD` (rule R29) -/
  regs : Regs
  /-- `FOLD` (rule R30) -/
  fold : Vector Byte 8
  /-- `VALUE` (rule R31) -/
  value : BitVec 64
  deriving DecidableEq, Repr

/-- The six dictionary indices (rule R33). -/
structure Indices where
  idx0 : BitVec 11
  idx1 : BitVec 11
  idx2 : BitVec 11
  idx3 : BitVec 11
  idx4 : BitVec 11
  idx5 : BitVec 11
  deriving DecidableEq, Repr

/-- What the Word Encoder leaves beside `OTPSTR`, which is in `State.mem` (rules R32 to R34). -/
structure Encoded where
  /-- `PARITY` (rule R32) -/
  parity : BitVec 2
  /-- `IDX0 .. IDX5` (rule R33) -/
  idx : Indices
  /-- `OTPLEN` (rule R34) -/
  otpLen : Word
  deriving DecidableEq, Repr

/-- `NFOLD` and `NREHASH` (rule R35). -/
structure Counters where
  nfold : Word
  nrehash : Word
  deriving DecidableEq, Repr

/-- The MODEL's own fields: what is outside the core but decides its next step, and what the host has seen.
None of them is a register of the core. -/
structure Port where
  /-- what arrives on the host interface and the reset input, the next first (rule R76) -/
  inbox : List HostEvent
  /-- the words `RegRead` has returned to the host, the latest first -/
  reads : List Word
  /-- free value (rule R210): host transactions that the next accepted command lets pass before it completes -/
  latency : Nat
  /-- host transactions the running command still lets pass before it completes -/
  wait : Nat
  /-- how many free values have been drawn -/
  draws : Nat
  deriving DecidableEq, Repr

/-- The complete state of the core (rule R20), its configuration and its port. `ID` is a constant
(rule R36) and `CMD` is not stored (rule R37), so neither is a field; `pc` is a function of `STATUS` (rule R22). -/
structure State where
  /-- `STATUS` -/
  status : Status
  /-- `ALG`, `SEQ`, `SEEDLEN`, `PASSLEN` -/
  req : Request
  /-- `DIGEST`, `AA..DD`, `FOLD`, `VALUE` -/
  work : Working
  /-- `PARITY`, `IDX0..5`, `OTPLEN` -/
  enc : Encoded
  /-- `NFOLD`, `NREHASH` -/
  count : Counters
  /-- `OTPSTR`, `SEEDBUF`, `PASSBUF` -/
  mem : Memory
  /-- `DICT` (rule R38) and `REQ_NONEMPTY` -/
  cfg : Params
  /-- the model's own -/
  port : Port
  deriving DecidableEq, Repr

/-- Why a step ends in a fault. -/
inductive Fault where
  /-- Raised by the completion step when `BUSY = 1` and `STATUS.OPC` names no command that can run (none of
  rule R92's, or `SRST`, which never sets `BUSY`). Safe: acceptance sets `BUSY` only together with the opcode
  of an accepted command (rule R94), so no run reaches such a state. -/
  | noCommandRunning
  deriving DecidableEq, Repr

/-- Why a step has no meaning. -/
inductive Refusal where
  /-- An instruction without a meaning, by its mnemonic. No arm of `exec` answers it. Safe. -/
  | notModelled (mnemonic : String)
  /-- Raised by the host port on a request that is no transaction of the interface: another width, an
  unaligned offset, an offset outside the window (rule R62, U4: a model refuses it). Safe. -/
  | notATransaction
  deriving DecidableEq, Repr

/-- The state right after reset (rules R40, R201): every register zero, `pc = IDLE`, the configuration
unaffected, nothing yet asked of the core. The duration of the first command is the first free value
(rule R210, log entry 4). -/
def State.reset : State where
  status := { busy := false, done := false, err := 0#4, opc := 0#8 }
  req := { alg := 0#32, seq := 0#32, seedLen := 0#32, passLen := 0#32 }
  work :=
    { digest := #v[0#8, 0#8, 0#8, 0#8, 0#8, 0#8, 0#8, 0#8, 0#8, 0#8, 0#8, 0#8, 0#8, 0#8, 0#8, 0#8]
      regs := { aa := 0#32, bb := 0#32, cc := 0#32, dd := 0#32 }
      fold := #v[0#8, 0#8, 0#8, 0#8, 0#8, 0#8, 0#8, 0#8]
      value := 0#64 }
  enc :=
    { parity := 0#2
      idx := { idx0 := 0#11, idx1 := 0#11, idx2 := 0#11, idx3 := 0#11, idx4 := 0#11, idx5 := 0#11 }
      otpLen := 0#32 }
  count := { nfold := 0#32, nrehash := 0#32 }
  mem := []
  cfg := Config.params
  port := { inbox := [], reads := [], latency := Config.freeLatency 0, wait := 0, draws := 1 }

end Sys2Proof.Machine
end

