-- ==== Sys2Proof/Machine/Bits.lean ====
section
/-! DEFINITION. Byte orders and the pure functions of the data path: `be32`, `le32`, `lebytes4` (rule R11),
`Extract` (rule R120), `FoldF` (rule R123), `Enc64` (rule R140), `Parity` (rule R145), the six indices
(rules R147, R148) and the string of the six words (rule R151). -/

namespace Sys2Proof.Machine

/-- `be32(b0, b1, b2, b3)` (rule R11): first byte most significant. -/
def be32 (b0 b1 b2 b3 : Byte) : Word :=
  (b0.setWidth 32 <<< 24) ||| (b1.setWidth 32 <<< 16) ||| (b2.setWidth 32 <<< 8) ||| b3.setWidth 32

/-- `le32(b0, b1, b2, b3)` (rule R11): first byte least significant. -/
def le32 (b0 b1 b2 b3 : Byte) : Word :=
  b0.setWidth 32 ||| (b1.setWidth 32 <<< 8) ||| (b2.setWidth 32 <<< 16) ||| (b3.setWidth 32 <<< 24)

/-- Byte lane `k` of a 32-bit word: lane 0 is bits 7:0 (rule R63). -/
def lane (v : Word) (k : Nat) : Byte := v.extractLsb' (8 * k) 8

/-- `lebytes4(v)` (rule R11): least significant byte first. -/
def lebytes4 (v : Word) : List Byte := [lane v 0, lane v 1, lane v 2, lane v 3]

/-- `Extract(d)` as the source words it (rule R120): reverse the digest, cut it into four groups, read each
with its first byte most significant, and assign the groups at offsets 12, 8, 4, 0 to `AA, BB, CC, DD`. -/
def extract (d : Vector Byte 16) : Regs :=
  let r (i : Fin 16) : Byte := d[15 - i.val]
  { aa := be32 (r 12) (r 13) (r 14) (r 15)
    bb := be32 (r 8) (r 9) (r 10) (r 11)
    cc := be32 (r 4) (r 5) (r 6) (r 7)
    dd := be32 (r 0) (r 1) (r 2) (r 3) }

/-- `FoldF(AA, BB, CC, DD)` (rule R123): `AA ^ CC`, then `BB ^ DD`, each least significant byte first. -/
def foldF (g : Regs) : Vector Byte 8 :=
  let ac := g.aa ^^^ g.cc
  let bd := g.bb ^^^ g.dd
  #v[lane ac 0, lane ac 1, lane ac 2, lane ac 3, lane bd 0, lane bd 1, lane bd 2, lane bd 3]

/-- `Enc64(f)` (rule R140): from zero, for each byte in order, `value ← (value << 8) | byte`. -/
def enc64 (f : Vector Byte 8) : BitVec 64 :=
  f.toList.foldl (fun v b => (v <<< 8) ||| b.setWidth 64) 0#64

/-- Group `k` of a value: its bits `2k+1 : 2k`, a number 0 to 3 (rule R145). -/
def parityGroup (v : BitVec 64) (k : Nat) : Nat := ((v >>> (2 * k)) &&& 3#64).toNat

/-- The sum of the 32 two-bit groups (rule R145). -/
def paritySum (v : BitVec 64) : Nat :=
  (List.range 32).foldl (fun s k => s + parityGroup v k) 0

/-- `Parity(v)` (rule R145): the low two bits of the sum. -/
def parity (v : BitVec 64) : BitVec 2 := BitVec.ofNat 2 (paritySum v &&& 3)

/-- The 11-bit group at a bit offset, `(v >> off) & 0x7FF` (rule R147). -/
def group11 (v : BitVec 64) (off : Nat) : BitVec 11 := ((v >>> off) &&& 0x7FF#64).setWidth 11

/-- The sixth index, `((v << 2) & 0x7FC) | parity` (rule R148). -/
def checksumIndex (v : BitVec 64) (p : BitVec 2) : BitVec 11 :=
  (((v <<< 2) &&& 0x7FC#64) ||| p.setWidth 64).setWidth 11

/-- The six indices of a value, in extraction order (rules R147, R148). -/
def indices (v : BitVec 64) : Indices :=
  { idx0 := group11 v 53
    idx1 := group11 v 42
    idx2 := group11 v 31
    idx3 := group11 v 20
    idx4 := group11 v 9
    idx5 := checksumIndex v (parity v) }

/-- The six indices as a list, in output order. -/
def Indices.toList (x : Indices) : List (BitVec 11) :=
  [x.idx0, x.idx1, x.idx2, x.idx3, x.idx4, x.idx5]

/-- `word_j = DICT[idx_j]` for `j = 0 .. 5` (rule R151); none where an index is outside the dictionary, never
a placeholder (rule R153). -/
def lookupWords (dict : List (List Byte)) (x : Indices) : Option (List (List Byte)) :=
  x.toList.mapM (fun i => dict[i.toNat]?)

/-- The words joined by single spaces (rule R151). -/
def joinWords (ws : List (List Byte)) : List Byte := List.intercalate [0x20#8] ws

/-- The string of rule R151 for a value. -/
def otpString (dict : List (List Byte)) (v : BitVec 64) : Option (List Byte) :=
  (lookupWords dict (indices v)).map joinWords

end Sys2Proof.Machine
end

