-- ==== Sys2Proof/Machine/Memory.lean ====
section
/-! DEFINITION. The byte buffers of the window and their canonical form (rules R26, R27, R34, R61, R79). -/

namespace Sys2Proof.Machine

/-- Window address of `OTPSTR[0]` (rule R61). -/
def otpBase : Nat := 0x080
/-- Window address of `SEEDBUF[0]` (rule R61). -/
def seedBase : Nat := 0x100
/-- Window address of `PASSBUF[0]` (rule R61). -/
def passBase : Nat := 0x200

/-- The addresses that hold a byte: `OTPSTR[0 .. STR_MAX-1]`, `SEEDBUF`, `PASSBUF` (rules R26, R27, R34). -/
def implemented (a : Nat) : Bool :=
  decide ((otpBase ≤ a ∧ a < otpBase + Config.strMax) ∨ (seedBase ≤ a ∧ a < seedBase + Config.seedMax) ∨
    (passBase ≤ a ∧ a < passBase + Config.passMax))

/-- The byte at an address; an unlisted address reads as its reset content (rule R40). -/
def Memory.read : Memory → Nat → Byte
  | [], _ => Config.unwritten
  | (k, b) :: m, a => if a = k then b else Memory.read m a

/-- Writing one byte. The list stays sorted, and writing what an unlisted address reads as removes the entry. -/
def Memory.write : Memory → Nat → Byte → Memory
  | [], a, b => if b = Config.unwritten then [] else [(a, b)]
  | (k, v) :: m, a, b =>
    if a < k then (if b = Config.unwritten then (k, v) :: m else (a, b) :: (k, v) :: m)
    else if a = k then (if b = Config.unwritten then m else (a, b) :: m)
    else (k, v) :: Memory.write m a b

/-- `MemWrite(base, n, B)` (rule R12): the bytes of a list at consecutive addresses. -/
def Memory.writeBytes : Memory → Nat → List Byte → Memory
  | m, _, [] => m
  | m, a, b :: bs => Memory.writeBytes (Memory.write m a b) (a + 1) bs

/-- `MemRead(base, n)` (rule R12): `n` bytes at consecutive addresses. -/
def Memory.readBytes (m : Memory) (base n : Nat) : List Byte :=
  (List.range n).map (fun k => Memory.read m (base + k))

/-- The 32-bit word whose lowest lane is the byte at an address (rule R63). -/
def Memory.readWord (m : Memory) (a : Nat) : Word :=
  le32 (Memory.read m a) (Memory.read m (a + 1)) (Memory.read m (a + 2)) (Memory.read m (a + 3))

/-- Every address of a list is above a bound and the list is strictly rising, with no entry equal to what an
unlisted address reads as. -/
def Memory.canonicalFrom : Nat → Memory → Bool
  | _, [] => true
  | lo, (k, b) :: m => decide (lo ≤ k) && decide (b ≠ Config.unwritten) && Memory.canonicalFrom (k + 1) m

/-- The canonical form: strictly rising addresses, each holding a byte other than the unwritten one. -/
def Memory.canonical (m : Memory) : Bool := Memory.canonicalFrom 0 m

/-- Well-formed memory: canonical, and only addresses that hold a byte are listed. -/
def Memory.wf (m : Memory) : Bool :=
  Memory.canonical m && m.all (fun c => implemented c.1)

end Sys2Proof.Machine
end

