-- ==== Sys2Proof/Machine/Operands.lean ====
section
/-! DEFINITION. The operands of the commands. A command word carries none (rule R91): each command takes its
operands from fixed registers, as rule R101 lists them. -/

namespace Sys2Proof.Machine

/-- `seq = sext_32(x[SEQ])` (rule R24). -/
def State.seqInt (s : State) : Int := s.req.seq.toInt

/-- The sequence number `n` of a request whose `SEQ` is not negative (rules R24, R131). -/
def State.rounds (s : State) : Nat := s.seqInt.toNat

/-- `supported(ALG)` (rule R111): MD5 (1) and SHA1 (2). -/
def supported (alg : Word) : Bool := alg == 1#32 || alg == 2#32

/-- `MemRead(SEEDBUF + 0, SEEDLEN)` (rule R112). -/
def State.seedBytes (s : State) : List Byte := Memory.readBytes s.mem seedBase s.req.seedLen.toNat

/-- `MemRead(PASSBUF + 0, PASSLEN)` (rule R112). -/
def State.passBytes (s : State) : List Byte := Memory.readBytes s.mem passBase s.req.passLen.toNat

/-- `M0` (rule R112): the seed bytes in order, then the passphrase bytes in order, nothing else. -/
def State.message0 (s : State) : List Byte := s.seedBytes ++ s.passBytes

/-- The message of a re-hash (rule R114): `FOLD[0] .. FOLD[7]`. -/
def State.foldMessage (s : State) : List Byte := s.work.fold.toList

/-- Rule R101's check `seq` holds: `sext_32(SEQ) >= 0`. -/
def State.seqOk (s : State) : Bool := decide (0 ≤ s.seqInt)

/-- Rule R101's check `len` holds: both lengths fit their buffers and, iff `REQ_NONEMPTY`, neither is 0. -/
def State.lenOk (s : State) : Bool :=
  decide (s.req.seedLen.toNat ≤ Config.seedMax) && decide (s.req.passLen.toNat ≤ Config.passMax)
    && (!s.cfg.reqNonempty || (decide (1 ≤ s.req.seedLen.toNat) && decide (1 ≤ s.req.passLen.toNat)))

/-- Rule R101's check `alg` holds: `ALG` is 1 or 2. -/
def State.algOk (s : State) : Bool := supported s.req.alg

/-- Rule R101's check `dict` holds: `DICT` has exactly 2048 entries. -/
def State.dictCountOk (s : State) : Bool := s.cfg.dict.entries.length == Config.dictSize

end Sys2Proof.Machine
end

