-- ==== Sys2Proof/Machine/Flags.lean ====
section
/-! DEFINITION. `STATUS`: the phase read off it, its 32-bit word, and the four ways it is written
(rules R21, R22, R94, R95, R176). -/

namespace Sys2Proof.Machine

/-- The sequencer phase `pc` (rule R22): `ERROR` when `ERR != 0`, otherwise `RUN` when `BUSY = 1`, otherwise
`IDLE`. -/
def Status.phase (t : Status) : Phase :=
  if t.err ≠ 0#4 then .error else if t.busy then .run else .idle

/-- `pc` of a state (rule R22). -/
def State.phase (s : State) : Phase := s.status.phase

/-- One bit as a word. -/
def bit (b : Bool) : Word := if b then 1#32 else 0#32

/-- The word read at the offset of `STATUS` (rule R21): `BUSY` bit 0, `DONE` bit 1, `ERR` bits 7:4, `OPC`
bits 15:8, the reserved bits 0. -/
def Status.word (t : Status) : Word :=
  bit t.busy ||| (bit t.done <<< 1) ||| (t.err.setWidth 32 <<< 4) ||| (t.opc.setWidth 32 <<< 8)

/-- The code recorded in `STATUS.ERR` (rule R170). -/
def errorCode : ErrorCode → BitVec 4
  | .invalidArgument => 1#4
  | .unsupportedAlgorithm => 2#4
  | .dictionaryConfiguration => 3#4
  | .illegalCommand => 4#4

/-- Rule R94 step 3: a command word is examined. -/
def Status.examined (t : Status) (opc : BitVec 8) : Status := { t with opc := opc, done := false }

/-- Rule R94 step 6: the command is accepted. -/
def Status.accepted (t : Status) : Status := { t with busy := true }

/-- Rule R95: the command has completed. -/
def Status.finished (t : Status) : Status := { t with busy := false, done := true }

/-- Rule R176: an error is recorded. -/
def Status.raised (t : Status) (e : ErrorCode) : Status :=
  { t with busy := false, done := false, err := errorCode e }

end Sys2Proof.Machine
end

