-- ==== Sys2Proof/Machine/Ops.lean ====
section
/-! DEFINITION. The operations the commands share: error entry (rule R176), acceptance (rule R94),
completion (rule R95), reset (rule R201), and the steps of the chain (rules R113, R120, R123, R131). -/

namespace Sys2Proof.Machine

/-- Rule R94 step 3: `STATUS.OPC <- w[7:0]`, `STATUS.DONE <- 0`. -/
def State.examine (s : State) (opc : BitVec 8) : State := { s with status := s.status.examined opc }

/-- `raise E`, the entry into an error (rule R176): `STATUS` records the code, nothing else changes. -/
def State.raise (s : State) (e : ErrorCode) : State := { s with status := s.status.raised e }

/-- Rule R94 step 6: `BUSY <- 1`, `NFOLD <- 0`, `NREHASH <- 0`. -/
def State.accept (s : State) : State :=
  { s with status := s.status.accepted, count := { nfold := 0#32, nrehash := 0#32 } }

/-- The status part of the atomic completion step (rule R95): `BUSY <- 0`, `DONE <- 1`. -/
def State.finish (s : State) : State :=
  { s with status := s.status.finished, port := { s.port with wait := 0 } }

/-- The model's own: the free value of the next command's duration is drawn (rule R210). -/
def State.redraw (s : State) : State :=
  { s with port := { s.port with latency := Config.freeLatency s.port.draws, draws := s.port.draws + 1 } }

/-- The model's own: the running command lets so many host transactions pass. -/
def State.setWait (s : State) (n : Nat) : State := { s with port := { s.port with wait := n } }

/-- Reset (rules R40, R162, R201), the same for the reset input and `SRST`, and the return from an error
(rule R178): every register takes its reset value; the configuration is not affected, and what is outside the
core (the host's requests, what it has read, the free values) stays. -/
def State.resetCore (s : State) : State :=
  { State.reset with cfg := s.cfg, port := { s.port with wait := 0 } }

/-- Which checks rule R101 lists for a command. -/
structure Checks where
  seq : Bool
  len : Bool
  alg : Bool
  dict : Bool
  deriving DecidableEq, Repr

/-- The check columns of rule R101's table. -/
def checksOf : Instr → Checks
  | .hash0 => { seq := false, len := true, alg := true, dict := false }
  | .xtr => { seq := false, len := false, alg := false, dict := false }
  | .fold => { seq := false, len := false, alg := false, dict := false }
  | .rehash => { seq := false, len := false, alg := true, dict := false }
  | .enc64 => { seq := false, len := false, alg := false, dict := false }
  | .wenc => { seq := false, len := false, alg := false, dict := true }
  | .chain => { seq := true, len := true, alg := true, dict := false }
  | .derive => { seq := true, len := true, alg := true, dict := true }
  | .step => { seq := false, len := false, alg := true, dict := false }
  | .srst => { seq := false, len := false, alg := false, dict := false }

/-- The first check of a command that fails, in the order of rule R175: `InvalidArgument`, then
`UnsupportedAlgorithm`, then `DictionaryConfigurationError`. -/
def firstError (c : Checks) (s : State) : Option ErrorCode :=
  if (c.seq && !s.seqOk) || (c.len && !s.lenOk) then some .invalidArgument
  else if c.alg && !s.algOk then some .unsupportedAlgorithm
  else if c.dict && !s.dictCountOk then some .dictionaryConfiguration
  else none

/-- A command's pseudocode: the state with its register writes, or the error of the defensive branch that
U12 asks for (never taken by an accepted command). -/
abbrev Body := State → Except ErrorCode State

/-- The atomic completion step (rule R95): the pseudocode's writes, `BUSY <- 0` and `DONE <- 1`. -/
def complete (body : Body) (s : State) : State :=
  match body s with
  | .ok t => t.finish
  | .error e => s.raise e

/-- An accepted command (rules R94 step 6, R95): it completes after as many host transactions as the free
value says. Where it is none, acceptance and completion are one step, as rule R95 allows. -/
def launch (body : Body) (s : State) : State :=
  if s.port.latency = 0 then complete body s.accept.redraw
  else s.accept.redraw.setWait s.port.latency

/-- A command word other than `SRST` written to `CMD` (rule R94 steps 2, 3, 5, 6). -/
def issue (i : Instr) (body : Body) (s : State) : State :=
  if s.phase = .idle then
    match firstError (checksOf i) s with
    | some e => (s.examine (opcode i)).raise e
    | none => launch body (s.examine (opcode i))
  else s

/-- `x[DIGEST] <- Digest(x[ALG], M)` (rules R113, R114). -/
def State.hash (s : State) (m : List Byte) : State :=
  { s with work := { s.work with digest := Config.digest s.req.alg m } }

/-- `(x[AA], x[BB], x[CC], x[DD]) <- Extract(x[DIGEST])` (rule R122). -/
def State.extractRegs (s : State) : State :=
  { s with work := { s.work with regs := extract s.work.digest } }

/-- `x[FOLD] <- FoldF(x[AA], x[BB], x[CC], x[DD])`, one application of the Register Folder, counted in `NFOLD`
(rules R35, R125). -/
def State.foldRegs (s : State) : State :=
  { s with
    work := { s.work with fold := foldF s.work.regs }
    count := { s.count with nfold := s.count.nfold + 1#32 } }

/-- `x[DIGEST] <- Digest(x[ALG], x[FOLD][0..7])`, one application of the Digest Provider to a fold, counted in
`NREHASH` (rules R35, R114). -/
def State.rehashFold (s : State) : State :=
  let t := s.hash s.foldMessage
  { t with count := { t.count with nrehash := t.count.nrehash + 1#32 } }

/-- The loop of rule R131 with `n` re-hashes still to come: fold; if it is the last round stop, otherwise
re-hash, extract and go on. -/
def chainRounds : Nat → State → State
  | 0, s => s.foldRegs
  | n + 1, s => chainRounds n s.foldRegs.rehashFold.extractRegs

/-- The pseudocode of the Hash-Chain Engine (rules R130, R131). -/
def chainEngine (s : State) : State :=
  chainRounds s.rounds (s.hash s.message0).extractRegs

/-- `x[VALUE] <- Enc64(x[FOLD][0..7])` (rule R141). -/
def State.encodeFold (s : State) : State :=
  { s with work := { s.work with value := enc64 s.work.fold } }

/-- The `STR_MAX` bytes of `OTPSTR` for a string (rule R152): the string and zero bytes after it. Six words and
five spaces never have more than `STR_MAX` bytes (rule R79), so nothing of a string is cut off. -/
def otpBytes (str : List Byte) : List Byte :=
  (str ++ List.replicate Config.strMax 0#8).take Config.strMax

/-- The writes of the Word Encoder for the string it has assembled (rule R152). No free value is drawn
(rule R13). -/
def State.putOtp (s : State) (str : List Byte) : State :=
  { s with
    enc := { parity := parity s.work.value, idx := indices s.work.value, otpLen := BitVec.ofNat 32 str.length }
    mem := Memory.writeBytes s.mem otpBase (otpBytes str) }

/-- The pseudocode of the Parity / Word Encoder (rule R152). An index outside the dictionary, which an accepted
command never meets (rule R153), is the error with code 3, never a placeholder word (U12). -/
def encodeWords (s : State) : Except ErrorCode State :=
  match otpString s.cfg.dict.entries s.work.value with
  | some str => .ok (s.putOtp str)
  | none => .error .dictionaryConfiguration

end Sys2Proof.Machine
end

