-- ==== Sys2Proof/Machine/Chain.lean ====
section
/-! DEFINITION. The Hash-Chain Engine and one round of it as commands: `CHAIN` and `STEP`. -/

namespace Sys2Proof.Machine

/-- The pseudocode of `CHAIN` (rule R131). -/
def chainBody : Body := fun s => .ok (chainEngine s)

/-- `CHAIN` (rule R131). -/
def execChain (s : State) : Host.Outcome State Fault Refusal := .next (issue .chain chainBody s)

/-- The pseudocode of `STEP` (rule R132): re-hash, extract from the new digest, fold the new registers. -/
def stepBody : Body := fun s => .ok s.rehashFold.extractRegs.foldRegs

/-- `STEP` (rule R132). -/
def execStep (s : State) : Host.Outcome State Fault Refusal := .next (issue .step stepBody s)

end Sys2Proof.Machine
end

