-- ==== Sys2Proof/Machine/DeriveSystem.lean ====
section
/-! DEFINITION. The public entry point and the system command: `DERIVE` and `SRST`. -/

namespace Sys2Proof.Machine

/-- The pseudocode of `DERIVE` (rule R160): that of `CHAIN`, then `VALUE <- Enc64(FOLD)`, then that of `WENC`
on the new `VALUE`. -/
def deriveBody : Body := fun s => encodeWords (chainEngine s).encodeFold

/-- `DERIVE` (rule R160). -/
def execDerive (s : State) : Host.Outcome State Fault Refusal := .next (issue .derive deriveBody s)

/-- `SRST` (rule R162; rule R94 step 1): obeyed in every phase, at once. -/
def execSrst (s : State) : Host.Outcome State Fault Refusal := .next s.resetCore

end Sys2Proof.Machine
end

