-- ==== Sys2Proof/Machine/DigestProvider.lean ====
section
/-! DEFINITION. The commands that only invoke the Digest Provider: `HASH0` and `REHASH`. -/

namespace Sys2Proof.Machine

/-- The pseudocode of `HASH0` (rule R113): the digest of seed and passphrase, counted in no counter. -/
def hash0Body : Body := fun s => .ok (s.hash s.message0)

/-- `HASH0` (rule R113). -/
def execHash0 (s : State) : Host.Outcome State Fault Refusal := .next (issue .hash0 hash0Body s)

/-- The pseudocode of `REHASH` (rule R114): the digest of the eight fold bytes, `NREHASH = 1`. -/
def rehashBody : Body := fun s => .ok s.rehashFold

/-- `REHASH` (rule R114). -/
def execRehash (s : State) : Host.Outcome State Fault Refusal := .next (issue .rehash rehashBody s)

end Sys2Proof.Machine
end

