-- ==== Sys2Proof/Machine/ExtractFold.lean ====
section
/-! DEFINITION. The Register Extractor and the Register Folder as commands: `XTR` and `FOLD`. -/

namespace Sys2Proof.Machine

/-- The pseudocode of `XTR` (rule R122). -/
def xtrBody : Body := fun s => .ok s.extractRegs

/-- `XTR` (rule R122). -/
def execXtr (s : State) : Host.Outcome State Fault Refusal := .next (issue .xtr xtrBody s)

/-- The pseudocode of `FOLD` (rule R125). -/
def foldBody : Body := fun s => .ok s.foldRegs

/-- `FOLD` (rule R125). -/
def execFold (s : State) : Host.Outcome State Fault Refusal := .next (issue .fold foldBody s)

end Sys2Proof.Machine
end

