-- ==== Sys2Proof/Machine/LongEncoder.lean ====
section
/-! DEFINITION. The Long Encoder as a command: `ENC64`. -/

namespace Sys2Proof.Machine

/-- The pseudocode of `ENC64` (rule R141). -/
def enc64Body : Body := fun s => .ok s.encodeFold

/-- `ENC64` (rule R141). -/
def execEnc64 (s : State) : Host.Outcome State Fault Refusal := .next (issue .enc64 enc64Body s)

end Sys2Proof.Machine
end

