-- ==== Sys2Proof/Machine/WordEncoder.lean ====
section
/-! DEFINITION. The Parity / Word Encoder as a command: `WENC`. -/

namespace Sys2Proof.Machine

/-- The pseudocode of `WENC` (rule R152). -/
def wencBody : Body := fun s => encodeWords s

/-- `WENC` (rule R152). -/
def execWenc (s : State) : Host.Outcome State Fault Refusal := .next (issue .wenc wencBody s)

end Sys2Proof.Machine
end

