-- ==== Sys2Proof/Machine/Dispatch.lean ====
section
/-! DEFINITION. What writing a command's word to `CMD` does, one arm per command (rules R92, R94). -/

namespace Sys2Proof.Machine

def exec (i : Instr) (s : State) : Host.Outcome State Fault Refusal :=
  match i with
  | .hash0 => Sys2Proof.Machine.execHash0 s
  | .xtr => Sys2Proof.Machine.execXtr s
  | .fold => Sys2Proof.Machine.execFold s
  | .rehash => Sys2Proof.Machine.execRehash s
  | .enc64 => Sys2Proof.Machine.execEnc64 s
  | .wenc => Sys2Proof.Machine.execWenc s
  | .chain => Sys2Proof.Machine.execChain s
  | .derive => Sys2Proof.Machine.execDerive s
  | .step => Sys2Proof.Machine.execStep s
  | .srst => Sys2Proof.Machine.execSrst s

end Sys2Proof.Machine
end

