-- ==== Sys2Proof/Machine/HostPort.lean ====
section
/-! DEFINITION. The host interface (rules R61 to R71): the register map, `RegRead`, `RegWrite`, the command
port, and what the core does with one event from outside. -/

namespace Sys2Proof.Machine

/-- The rows of rule R61's table that are single words, and the words of `DIGEST`, `FOLD` and `IDX`. -/
def registerMap : List (Nat × Slot) :=
  [(0x000, .id), (0x004, .cmd), (0x008, .status), (0x00C, .alg), (0x010, .seq), (0x014, .seedLen),
   (0x018, .passLen), (0x01C, .nfold), (0x020, .nrehash), (0x030, .digest 0), (0x034, .digest 1),
   (0x038, .digest 2), (0x03C, .digest 3), (0x040, .aa), (0x044, .bb), (0x048, .cc), (0x04C, .dd),
   (0x050, .fold 0), (0x054, .fold 1), (0x058, .valueLo), (0x05C, .valueHi), (0x060, .parity),
   (0x064, .otpLen), (0x068, .idx 0), (0x06C, .idx 1), (0x070, .idx 2), (0x074, .idx 3), (0x078, .idx 4),
   (0x07C, .idx 5)]

/-- The register at an aligned offset of the window (rule R61); an offset that holds none is reserved
(rule R66). -/
def slotAt (off : Nat) : Slot :=
  match registerMap.lookup off with
  | some r => r
  | none =>
    if 0x080 ≤ off ∧ off ≤ 0x0BC then .otpStr (Fin.ofNat 16 ((off - 0x080) / 4))
    else if 0x100 ≤ off ∧ off ≤ 0x1FC then .seedBuf (Fin.ofNat 64 ((off - 0x100) / 4))
    else if 0x200 ≤ off ∧ off ≤ 0x2FC then .passBuf (Fin.ofNat 64 ((off - 0x200) / 4))
    else .reserved

/-- The offset of a register (rule R61); for `reserved`, the first reserved offset. -/
def slotOffset : Slot → Nat
  | .id => 0x000
  | .cmd => 0x004
  | .status => 0x008
  | .alg => 0x00C
  | .seq => 0x010
  | .seedLen => 0x014
  | .passLen => 0x018
  | .nfold => 0x01C
  | .nrehash => 0x020
  | .digest j => 0x030 + 4 * j.val
  | .aa => 0x040
  | .bb => 0x044
  | .cc => 0x048
  | .dd => 0x04C
  | .fold j => 0x050 + 4 * j.val
  | .valueLo => 0x058
  | .valueHi => 0x05C
  | .parity => 0x060
  | .otpLen => 0x064
  | .idx j => 0x068 + 4 * j.val
  | .otpStr j => 0x080 + 4 * j.val
  | .seedBuf j => 0x100 + 4 * j.val
  | .passBuf j => 0x200 + 4 * j.val
  | .reserved => 0x024

/-- The host's right on a register (rules R61, R67). -/
def slotAccess : Slot → Access
  | .id => .ro
  | .cmd => .wo
  | .status => .ro
  | .alg => .rw
  | .seq => .rw
  | .seedLen => .rw
  | .passLen => .rw
  | .nfold => .ro
  | .nrehash => .ro
  | .digest _ => .rw
  | .aa => .rw
  | .bb => .rw
  | .cc => .rw
  | .dd => .rw
  | .fold _ => .rw
  | .valueLo => .rw
  | .valueHi => .rw
  | .parity => .ro
  | .otpLen => .ro
  | .idx _ => .ro
  | .otpStr _ => .ro
  | .seedBuf _ => .rw
  | .passBuf _ => .wo
  | .reserved => .razWi

/-- Byte `k` of `OTPSTR`: the bytes at index `STR_MAX` and above are always zero (rules R34, R66). -/
def otpByte (s : State) (k : Nat) : Byte :=
  if k < Config.strMax then Memory.read s.mem (otpBase + k) else 0#8

/-- Word `j` of `DIGEST` (rule R61). -/
def digestWord (d : Vector Byte 16) (j : Fin 4) : Word :=
  le32 (d[4 * j.val]'(by omega)) (d[4 * j.val + 1]'(by omega)) (d[4 * j.val + 2]'(by omega))
    (d[4 * j.val + 3]'(by omega))

/-- Word `j` of `FOLD` (rule R61). -/
def foldWord (f : Vector Byte 8) (j : Fin 2) : Word :=
  le32 (f[4 * j.val]'(by omega)) (f[4 * j.val + 1]'(by omega)) (f[4 * j.val + 2]'(by omega))
    (f[4 * j.val + 3]'(by omega))

/-- `IDXj` (rule R33). -/
def indexAt (x : Indices) (j : Fin 6) : BitVec 11 :=
  match j with
  | 0 => x.idx0
  | 1 => x.idx1
  | 2 => x.idx2
  | 3 => x.idx3
  | 4 => x.idx4
  | 5 => x.idx5

/-- What a read of a register returns for the current state (rules R61, R64): the content of a register the
host may read, 0 for a write-only register and for a reserved offset. -/
def slotWord (s : State) : Slot → Word
  | .id => Config.coreId
  | .cmd => 0#32
  | .status => s.status.word
  | .alg => s.req.alg
  | .seq => s.req.seq
  | .seedLen => s.req.seedLen
  | .passLen => s.req.passLen
  | .nfold => s.count.nfold
  | .nrehash => s.count.nrehash
  | .digest j => digestWord s.work.digest j
  | .aa => s.work.regs.aa
  | .bb => s.work.regs.bb
  | .cc => s.work.regs.cc
  | .dd => s.work.regs.dd
  | .fold j => foldWord s.work.fold j
  | .valueLo => s.work.value.extractLsb' 0 32
  | .valueHi => s.work.value.extractLsb' 32 32
  | .parity => s.enc.parity.setWidth 32
  | .otpLen => s.enc.otpLen
  | .idx j => (indexAt s.enc.idx j).setWidth 32
  | .otpStr j =>
    le32 (otpByte s (4 * j.val)) (otpByte s (4 * j.val + 1)) (otpByte s (4 * j.val + 2))
      (otpByte s (4 * j.val + 3))
  | .seedBuf j => Memory.readWord s.mem (seedBase + 4 * j.val)
  | .passBuf _ => 0#32
  | .reserved => 0#32

/-- The bits of a register whose value a read returns unspecified while a command runs (rule R70): all 32 of
every working and result register, none of any other. The bytes of the `OTPSTR` window at index `STR_MAX` and
above read as zero in every phase (rule R66), so they are none of them. -/
def stagedBits : Slot → Word
  | .digest _ => 0xFFFFFFFF#32
  | .aa => 0xFFFFFFFF#32
  | .bb => 0xFFFFFFFF#32
  | .cc => 0xFFFFFFFF#32
  | .dd => 0xFFFFFFFF#32
  | .fold _ => 0xFFFFFFFF#32
  | .valueLo => 0xFFFFFFFF#32
  | .valueHi => 0xFFFFFFFF#32
  | .parity => 0xFFFFFFFF#32
  | .otpLen => 0xFFFFFFFF#32
  | .idx _ => 0xFFFFFFFF#32
  | .nfold => 0xFFFFFFFF#32
  | .nrehash => 0xFFFFFFFF#32
  | .otpStr j => if j.val < 7 then 0xFFFFFFFF#32 else if j.val = 7 then 0x000000FF#32 else 0#32
  | .id => 0#32
  | .cmd => 0#32
  | .status => 0#32
  | .alg => 0#32
  | .seq => 0#32
  | .seedLen => 0#32
  | .passLen => 0#32
  | .seedBuf _ => 0#32
  | .passBuf _ => 0#32
  | .reserved => 0#32

/-- The host is given a word. -/
def State.giveRead (s : State) (v : Word) : State :=
  { s with port := { s.port with reads := v :: s.port.reads } }

/-- A free value has been drawn. -/
def State.drawn (s : State) : State :=
  { s with port := { s.port with draws := s.port.draws + 1 } }

/-- `RegRead` of a register (rules R64, R70, R71). In `RUN` a working or result register gives a free value,
a fresh one at each read. -/
def readSlot (r : Slot) (s : State) : State :=
  if s.phase = .run ∧ stagedBits r ≠ 0#32 then
    (s.giveRead (Config.freeRead s.port.draws &&& stagedBits r)).drawn
  else s.giveRead (slotWord s r)

/-- The four bytes of a word replace the bytes of a byte array from index `k` on (rule R65). -/
def setLanes {n : Nat} (d : Vector Byte n) (k : Nat) (v : Word) : Vector Byte n :=
  (((d.setIfInBounds k (lane v 0)).setIfInBounds (k + 1) (lane v 1)).setIfInBounds (k + 2)
    (lane v 2)).setIfInBounds (k + 3) (lane v 3)

/-- What a host write stores when `pc = IDLE` (rule R65): all 32 bits of a register that keeps them, nothing
for a register the host may not write. `CMD` stores nothing: its write is `cmdWrite`. -/
def storeSlot (r : Slot) (v : Word) (s : State) : State :=
  match r with
  | .alg => { s with req := { s.req with alg := v } }
  | .seq => { s with req := { s.req with seq := v } }
  | .seedLen => { s with req := { s.req with seedLen := v } }
  | .passLen => { s with req := { s.req with passLen := v } }
  | .digest j => { s with work := { s.work with digest := setLanes s.work.digest (4 * j.val) v } }
  | .aa => { s with work := { s.work with regs := { s.work.regs with aa := v } } }
  | .bb => { s with work := { s.work with regs := { s.work.regs with bb := v } } }
  | .cc => { s with work := { s.work with regs := { s.work.regs with cc := v } } }
  | .dd => { s with work := { s.work with regs := { s.work.regs with dd := v } } }
  | .fold j => { s with work := { s.work with fold := setLanes s.work.fold (4 * j.val) v } }
  | .valueLo => { s with work := { s.work with value := s.work.value.extractLsb' 32 32 ++ v } }
  | .valueHi => { s with work := { s.work with value := v ++ s.work.value.extractLsb' 0 32 } }
  | .seedBuf j => { s with mem := Memory.writeBytes s.mem (seedBase + 4 * j.val) (lebytes4 v) }
  | .passBuf j => { s with mem := Memory.writeBytes s.mem (passBase + 4 * j.val) (lebytes4 v) }
  | .id => s
  | .cmd => s
  | .status => s
  | .nfold => s
  | .nrehash => s
  | .parity => s
  | .otpLen => s
  | .idx _ => s
  | .otpStr _ => s
  | .reserved => s

/-- A word that is no command, written to `CMD` (rules R93, R94 steps 2 to 4, R174): dropped unless
`pc = IDLE`, where it raises `IllegalCommand`. -/
def illegalCommand (w : Word) (s : State) : State :=
  if s.phase = .idle then (s.examine (opcField w)).raise .illegalCommand else s

/-- A write to `CMD` (rule R94). -/
def cmdWrite (w : Word) (s : State) : Host.Outcome State Fault Refusal :=
  match decode w with
  | .ok i => exec i s
  | .error _ => .next (illegalCommand w s)

/-- `RegWrite` of a register (rules R65, R69): ignored unless `pc = IDLE`; `CMD` is examined in every phase. -/
def writeSlot (r : Slot) (v : Word) (s : State) : Host.Outcome State Fault Refusal :=
  if r = .cmd then cmdWrite v s
  else .next (if s.phase = .idle then storeSlot r v s else s)

/-- Taking the next event off the host interface: the running command has let one more pass. -/
def State.tick (s : State) (rest : List HostEvent) : State :=
  { s with port := { s.port with inbox := rest, wait := s.port.wait - 1 } }

/-- `WAIT` (rule R99): a read of `STATUS`, to be repeated while the word has `BUSY = 1`. -/
def pollStatus (s : State) : State :=
  let t := readSlot .status s
  if s.status.word.extractLsb' 0 1 = 1#1 then { t with port := { t.port with inbox := .poll :: t.port.inbox } } else t

/-- One event from outside (rules R62, R64, R65, R99, R200). A request that is no transaction of the interface
is refused (rule R62). -/
def perform (e : HostEvent) (s : State) : Host.Outcome State Fault Refusal :=
  match e with
  | .read bytes off =>
    if transactionOk bytes off then .next (readSlot (slotAt off) s) else .refused .notATransaction
  | .write bytes off v =>
    if transactionOk bytes off then writeSlot (slotAt off) v s else .refused .notATransaction
  | .poll => .next (pollStatus s)
  | .reset => .next s.resetCore

end Sys2Proof.Machine
end

