-- ==== Sys2Proof/Machine/Sequencer.lean ====
section
/-! DEFINITION. The sequencer (rules R9, R95): when an accepted command completes, and the atomic step in
which it does. -/

namespace Sys2Proof.Machine

/-- The pseudocode of the command that `STATUS.OPC` names (rule R22): none for `SRST`, which never runs, and
for an opcode that names no command. -/
def runningBody (o : BitVec 8) : Option Body :=
  match commandOfOpcode o with
  | some .hash0 => some hash0Body
  | some .xtr => some xtrBody
  | some .fold => some foldBody
  | some .rehash => some rehashBody
  | some .enc64 => some enc64Body
  | some .wenc => some wencBody
  | some .chain => some chainBody
  | some .derive => some deriveBody
  | some .step => some stepBody
  | some .srst => none
  | none => none

/-- The completion step of the running command (rule R95). -/
def sequencer (s : State) : Host.Outcome State Fault Refusal :=
  match runningBody s.status.opc with
  | some body => .next (complete body s)
  | none => .fault .noCommandRunning

/-- The running command completes now: it has let as many host transactions pass as it does, or the host asks
nothing more (rules R95, R210: it always completes, after a finite time). -/
def State.due (s : State) : Bool :=
  s.phase == .run && (s.port.wait == 0 || s.port.inbox.isEmpty)

/-- The next event from outside; none means that the core does nothing and keeps all state (rule R186). -/
def hostTurn (s : State) : Host.Outcome State Fault Refusal :=
  match s.port.inbox with
  | [] => .next s
  | e :: rest => perform e (s.tick rest)

end Sys2Proof.Machine
end

