-- ==== Sys2Proof/Machine/Step.lean ====
section
/-! DEFINITION. One step of the core (rule R6): the completion of a command, or one event from outside. -/

namespace Sys2Proof.Machine

/-- One step (rules R6, R76, R95). -/
def step (s : State) : Host.Outcome State Fault Refusal :=
  if s.due then sequencer s else hostTurn s

/-- The command word `w` as the next thing the host writes to `CMD`. If a command is running it is made to let
this write pass first, so that the very next step examines the word. -/
def State.withFetchWord (s : State) (nbits w : Nat) : State :=
  { s with
    port :=
      { s.port with
        inbox := .write 4 0x004 (BitVec.ofNat 32 (w % 2 ^ nbits)) :: s.port.inbox
        wait := if s.phase = .run then max s.port.wait 1 else s.port.wait } }

end Sys2Proof.Machine
end

