-- ==== Sys2Proof/Machine/Notation.lean ====
section
/-! DEFINITION. The host notation (rules R99, R100): what a line puts on the host interface. -/

namespace Sys2Proof.Machine

/-- Word `j` of a text padded with zero bytes (rule R100): `le32(B'[4j .. 4j+3])`. -/
def textWord (text : List Byte) (j : Nat) : Word :=
  le32 (text.getD (4 * j) 0#8) (text.getD (4 * j + 1) 0#8) (text.getD (4 * j + 2) 0#8)
    (text.getD (4 * j + 3) 0#8)

/-- The writes that load a text into a buffer and its length into a register (rule R100). -/
def loadText (base lenOff : Nat) (text : List Byte) : List HostEvent :=
  (List.range ((text.length + 3) / 4)).map (fun j => .write 4 (base + 4 * j) (textWord text j))
    ++ [.write 4 lenOff (BitVec.ofNat 32 text.length)]

/-- A bare mnemonic: the command word on `CMD` (rule R99). -/
def commandEvent (i : Instr) : HostEvent := .write 4 0x004 (encode i)

/-- The transactions of one line (rules R99, R100). -/
def lineEvents : HostLine → List HostEvent
  | .wr r v => [.write 4 (slotOffset r) v]
  | .rd r => [.read 4 (slotOffset r)]
  | .command i => [commandEvent i]
  | .wait => [.poll]
  | .seed text => loadText seedBase 0x014 text
  | .pass text => loadText passBase 0x018 text
  | .run i => [commandEvent i, .poll]

/-- The transactions of a host program, in order (rule R99). -/
def programEvents (p : List HostLine) : List HostEvent := p.flatMap lineEvents

end Sys2Proof.Machine
end

