-- ==== Sys2Proof/Safety.lean ====
section
/-! DEFINITION. What counts as a good state and a good end of a run, and the words the statements use: the
invariant of the core (rules R21, R95, R170), the end of a run (rule R211), what an error, an acceptance and
a completion leave (rules R94, R95, R176), and the chain of a request (rule R130). -/

namespace Sys2Proof.Machine

/-- At most one of `BUSY`, `DONE`, `ERR != 0` holds (rule R21). -/
def Status.exclusive (t : Status) : Bool :=
  !(t.busy && t.done) && !(t.busy && t.err != 0#4) && !(t.done && t.err != 0#4)

/-- `ERR` holds a code of rule R170's list: codes 5 to 15 are never produced. -/
def Status.errLegal (t : Status) : Bool := decide (t.err.toNat ≤ 4)

/-- What is true while `BUSY = 1`: `OPC` names a command other than `SRST`, its checks pass (rule R95: no error
at completion), and both counters are 0 (rule R94 step 6). -/
def State.runningOk (s : State) : Bool :=
  match commandOfOpcode s.status.opc with
  | some i =>
    decide (i ≠ .srst) && (firstError (checksOf i) s).isNone && s.count.nfold == 0#32
      && s.count.nrehash == 0#32
  | none => false

/-- The invariant of the core: memory in its canonical form, `STATUS` as rules R21 and R170 say, and a running
command that can complete. -/
def State.inv (s : State) : Bool :=
  Memory.wf s.mem && s.status.exclusive && s.status.errLegal && (!s.status.busy || s.runningOk)

/-- The run has ended (rule R211): nothing more is asked of the core and `pc != RUN`. -/
def State.ended (s : State) : Bool := s.port.inbox.isEmpty && s.phase != .run

/-- The run has ended well (rule R211): it has ended and `ERR = 0`. -/
def State.endedWell (s : State) : Bool := s.ended && s.status.err == 0#4

/-- The evidence every claim about a result takes (rule R177): `ERR = 0` and `DONE = 1`. -/
def State.resultValid (s : State) : Bool := s.status.err == 0#4 && s.status.done

/-- The state an error of command `i` leaves (rule R176): `STATUS` and nothing else differs. -/
def State.erred (s : State) (i : Instr) (e : ErrorCode) : State :=
  { s with status := { busy := false, done := false, err := errorCode e, opc := opcode i } }

/-- The state the acceptance of command `i` leaves (rule R94 step 6), waiting for as many host transactions as
the free value says. -/
def State.running (s : State) (i : Instr) : State :=
  { s with
    status := { busy := true, done := false, err := 0#4, opc := opcode i }
    count := { nfold := 0#32, nrehash := 0#32 }
    port :=
      { s.port with
        wait := s.port.latency, latency := Config.freeLatency s.port.draws, draws := s.port.draws + 1 } }

/-- The state the completion of command `i` leaves (rule R95) if it writes these working registers and ends with
these counters. -/
def State.completed (s : State) (i : Instr) (w : Working) (nfold nrehash : Word) : State :=
  { s with
    status := { busy := false, done := true, err := 0#4, opc := opcode i }
    work := w
    count := { nfold := nfold, nrehash := nrehash }
    port :=
      { s.port with wait := 0, latency := Config.freeLatency s.port.draws, draws := s.port.draws + 1 } }

/-- Command `i`, written to `CMD` in state `s`, is accepted and completes in state `t` (rules R94, R95). If no
host transaction comes in between, `exec` answers `t` itself; otherwise it answers the running state, and the
completion step of that state answers `t`. What the host does while the command runs changes the port alone, so the
last clause says what the completion is when it comes: from the running state with whatever port it then has, as soon
as it is due, the step leaves `t` with that port. That the wait is counted in host transactions is the model's choice
(log entry 4); both cases are allowed by rule R95. -/
def CompletesAs (i : Instr) (s t : State) : Prop :=
  (s.port.latency = 0 → exec i s = .next t) ∧
  (s.port.latency ≠ 0 → exec i s = .next (s.running i) ∧ sequencer (s.running i) = .next t ∧
    ∀ p : Port, p.wait = 0 ∨ p.inbox = [] →
      step { s.running i with port := p } = .next { t with port := { p with wait := 0 } })

/-- The event from outside resets the core: the reset input (rule R200), or the write that carries `SRST`
(rule R162). -/
def eventResets : HostEvent → Bool
  | .reset => true
  | .write bytes off v => bytes == 4 && off == 0x004 && v == 0x000000FF#32
  | .read _ _ => false
  | .poll => false

/-- A sequence of commands, each run to completion before the next is written. -/
def CompleteSeq : List Instr → State → State → Prop
  | [], s, t => s = t
  | i :: is, s, t => ∃ m, CompletesAs i s m ∧ CompleteSeq is m t

/-- `d_k` of rule R130: the digest of round `k` of a chain. -/
def chainDigest (alg : Word) (m0 : List Byte) : Nat → Vector Byte 16
  | 0 => Config.digest alg m0
  | k + 1 => Config.digest alg (foldF (extract (chainDigest alg m0 k))).toList

/-- The working registers from which the final fold of a chain was taken, and that fold (rule R131):
`DIGEST = d_n`, `(AA, BB, CC, DD) = g_n`, `FOLD = f_n`. -/
def chainWork (alg : Word) (m0 : List Byte) (n : Nat) (value : BitVec 64) : Working :=
  { digest := chainDigest alg m0 n
    regs := extract (chainDigest alg m0 n)
    fold := foldF (extract (chainDigest alg m0 n))
    value := value }

/-- Entry `i` of a dictionary (rule R12), for an index inside it. -/
def entryAt (dict : List (List Byte)) (i : BitVec 11) : List Byte := dict[i.toNat]?.getD []

/-- The string `S` of rule R151, written out for the six indices of a value. -/
def otpText (dict : List (List Byte)) (v : BitVec 64) : List Byte :=
  let x := indices v
  entryAt dict x.idx0 ++ [0x20#8] ++ entryAt dict x.idx1 ++ [0x20#8] ++ entryAt dict x.idx2 ++ [0x20#8]
    ++ entryAt dict x.idx3 ++ [0x20#8] ++ entryAt dict x.idx4 ++ [0x20#8] ++ entryAt dict x.idx5

/-- `t` holds the encoding of the value `v` (rule R152): parity, indices, length, and the string with zero bytes
after it. -/
def State.holdsOtp (t : State) (v : BitVec 64) : Prop :=
  t.enc = { parity := parity v, idx := indices v, otpLen := BitVec.ofNat 32 (otpText t.cfg.dict.entries v).length } ∧
  ∀ k < Config.strMax, Memory.read t.mem (otpBase + k) = (otpText t.cfg.dict.entries v).getD k 0#8

/-- Two states hold the same working and result registers, the counters apart (rule R163). -/
def SameResults (s t : State) : Prop :=
  s.work = t.work ∧ s.enc = t.enc ∧ ∀ a, Memory.read s.mem a = Memory.read t.mem a

/-- An address of a byte of `PASSBUF`. -/
def inPassbuf (a : Nat) : Prop := passBase ≤ a ∧ a < passBase + Config.passMax

/-- Two states that differ in the content of `PASSBUF` at most. -/
def SameButPassphrase (s t : State) : Prop :=
  s.status = t.status ∧ s.req = t.req ∧ s.work = t.work ∧ s.enc = t.enc ∧ s.count = t.count ∧
  s.cfg = t.cfg ∧ s.port = t.port ∧ ∀ a, ¬ inPassbuf a → Memory.read s.mem a = Memory.read t.mem a

/-- The commands that hash the passphrase (rule R41 (d), R113). -/
def hashesPassphrase (i : Instr) : Bool := i == .hash0 || i == .chain || i == .derive

/-- The next step runs, or completes, a command that hashes the passphrase. -/
def State.passphraseUsed (s : State) : Prop :=
  (s.due = true ∧ ∃ i, commandOfOpcode s.status.opc = some i ∧ hashesPassphrase i = true) ∨
  (s.due = false ∧ ∃ w rest i, s.port.inbox = .write 4 0x004 w :: rest ∧ decode w = .ok i ∧
    hashesPassphrase i = true)

end Sys2Proof.Machine
end

