-- ==== Sys2Proof/Certificates/Slice0/Obligations.lean ====
section
/-! DEFINITION. What the provers are asked to prove, statement by statement. -/

open Sys2Proof Sys2Proof.Machine

/-! ### Encoding (rules R90 to R93) -/

/-- Rule R92: all 32 bits are decoded, and exactly the ten words of the table are commands. -/
def Obligations.TenWordsDecodeAndNoOther : Prop :=
  ∀ (w : Word) (i : Instr), decode w = .ok i ↔
    (w, i) ∈ [(0x00000001#32, Instr.hash0), (0x00000004#32, .rehash), (0x00000002#32, .xtr),
      (0x00000003#32, .fold), (0x00000012#32, .step), (0x00000010#32, .chain), (0x00000005#32, .enc64),
      (0x00000006#32, .wenc), (0x00000011#32, .derive), (0x000000FF#32, .srst)]

/-- Decoding the encoding of any well-formed instruction gives it back, in the table's numbering too. -/
def Obligations.DecodeEncodeRoundTrip : Prop :=
  ∀ i : Instr, i.wf = true → decode (encode i) = .ok i ∧ decodeTableWord 32 (encode i).toNat = some i

/-- The words of rule R92, and illegal words that rule R93 and the vectors V-E11 to V-E14 name. -/
def Obligations.SampleWordsDecode : Prop :=
  decode 0x00000011#32 = .ok .derive ∧ decode 0x000000FF#32 = .ok .srst ∧
  decode 0x00000003#32 = .ok .fold ∧ decode 0x00000000#32 = .error .noSuchOpcode ∧
  decode 0x00000007#32 = .error .noSuchOpcode ∧ decode 0x00000111#32 = .error .zeroFieldNotZero ∧
  decode 0x000001FF#32 = .error .zeroFieldNotZero

/-! ### The step (rules R6, R94, R95, R210) -/

/-- When the host's next transaction writes a command word to `CMD`, and no command is due to complete first,
the step is `exec` of the decoded command on the state with that transaction taken off the interface; when the
running command is due, the step is its completion. -/
def Obligations.StepRunsTheDecodedCommand : Prop :=
  (∀ (s : State) (w : Word) (rest : List HostEvent) (i : Instr),
    s.due = false → s.port.inbox = .write 4 0x004 w :: rest → decode w = .ok i → i.wf = true →
    step s = exec i
      { s with port := { s.port with inbox := rest, wait := s.port.wait - 1 } }) ∧
  ∀ s : State, s.due = true → step s = sequencer s

/-- Rule R95: the completion step of a running command raises no error, clears `BUSY` and sets `DONE`, and
leaves the request registers, the two buffers and `OPC` as they are. -/
def Obligations.CompletionIsOneStepWithoutError : Prop :=
  ∀ s : State, s.inv = true → s.due = true → ∃ t, step s = .next t ∧
    t.status = { busy := false, done := true, err := 0#4, opc := s.status.opc } ∧ t.phase = .idle ∧
    t.req = s.req ∧ t.cfg = s.cfg ∧ t.port.inbox = s.port.inbox ∧ t.port.reads = s.port.reads ∧
    ∀ a, ¬ (otpBase ≤ a ∧ a < otpBase + Config.strMax) → Memory.read t.mem a = Memory.read s.mem a

/-- A running command ends after a finite time (rule R210): while the host makes only transactions of the interface,
the phase leaves `RUN` within as many steps as the command lets transactions pass, and one more. That the time is
counted in host transactions is the model's choice (log entry 4). -/
def Obligations.RunningCommandEndsInFiniteTime : Prop :=
  ∀ s : State, s.inv = true → s.phase = .run → (∀ e ∈ s.port.inbox, e.wf = true) →
    ∃ n t, n ≤ s.port.wait + 1 ∧ Host.Core.run Sys2Proof.core n s = .next t ∧ t.phase ≠ .run

/-- Rule R186: when `pc` is not `RUN` and the host asks nothing, the core does nothing and keeps all state. -/
def Obligations.QuietCoreKeepsItsState : Prop :=
  ∀ s : State, s.phase ≠ .run → s.port.inbox = [] → step s = .next s

/-! ### The invariant and reset -/

/-- Every step keeps the invariant: memory canonical, `STATUS` legal (rules R21, R170), and a running command
one that can complete without error (rule R95). -/
def Obligations.EveryStepKeepsTheInvariant : Prop :=
  ∀ s t : State, s.inv = true → step s = .next t → t.inv = true

/-- The state after reset has the invariant. -/
def Obligations.ResetHasTheInvariant : Prop := State.reset.inv = true

/-- Rule R40: what reset leaves in every register, through the window and inside the core. The values of
`DICT` and `REQ_NONEMPTY` are the chip's own, and the port's fields are the model's. -/
def Obligations.ResetLeavesEveryRegisterZero : Prop :=
  State.reset.status.word = 0#32 ∧ State.reset.phase = .idle ∧
  State.reset.req = { alg := 0#32, seq := 0#32, seedLen := 0#32, passLen := 0#32 } ∧
  (∀ a, Memory.read State.reset.mem a = 0#8) ∧
  (∀ k : Fin 16, State.reset.work.digest[k] = 0#8) ∧
  State.reset.work.regs = { aa := 0#32, bb := 0#32, cc := 0#32, dd := 0#32 } ∧
  (∀ k : Fin 8, State.reset.work.fold[k] = 0#8) ∧ State.reset.work.value = 0#64 ∧
  State.reset.enc.parity = 0#2 ∧ (∀ j, indexAt State.reset.enc.idx j = 0#11) ∧
  State.reset.enc.otpLen = 0#32 ∧ State.reset.count = { nfold := 0#32, nrehash := 0#32 } ∧
  slotWord State.reset .id = 0x4F545031#32 ∧ State.reset.cfg = Config.params

/-- Rule R162: `SRST` in every phase, within the write that carries it: every register takes its reset value,
the configuration stays; and the reset input (rule R200) has the same effect. -/
def Obligations.SoftResetInEveryPhase : Prop :=
  ∀ s : State,
    encode .srst = 0x000000FF#32 ∧
    (∃ t, exec .srst s = .next t ∧ perform .reset s = .next t ∧
      t.status = { busy := false, done := false, err := 0#4, opc := 0#8 } ∧ t.phase = .idle ∧
      t.req = State.reset.req ∧ t.work = State.reset.work ∧ t.enc = State.reset.enc ∧
      t.count = State.reset.count ∧ t.mem = State.reset.mem ∧ t.cfg = s.cfg ∧
      t.port.inbox = s.port.inbox ∧ t.port.reads = s.port.reads) ∧
    (∀ w, opcField w = 0xFF#8 → w ≠ 0x000000FF#32 → decode w ≠ .ok .srst)

/-- No step changes `DICT` or `REQ_NONEMPTY` (rule R39: no command or reset changes the configuration). -/
def Obligations.NoStepChangesTheConfiguration : Prop :=
  ∀ s t : State, step s = .next t → t.cfg = s.cfg

/-- From a state with the invariant no step faults, and the only step without a meaning is a request that is no
transaction of the interface (rule R62). -/
def Obligations.OnlyARequestOutsideTheInterfaceStops : Prop :=
  ∀ s : State, s.inv = true →
    (∀ f, step s ≠ .fault f) ∧
    ∀ r, step s = .refused r ↔
      r = .notATransaction ∧ s.due = false ∧ ∃ e rest, s.port.inbox = e :: rest ∧ e.wf = false

/-- Rule R22: `pc` stays, or moves by one of the events the rule names: acceptance of a command, its completion, a
failed check, a reset, each with what it leaves. Where acceptance and completion are one step of the model (log entry
4) the two moves show as none. -/
def Obligations.PhaseMovesOnlyAsListed : Prop :=
  ∀ s t : State, s.inv = true → step s = .next t →
    t.phase = s.phase ∨
    (s.phase = .idle ∧ t.phase = .run ∧ ∃ w rest i, s.port.inbox = .write 4 0x004 w :: rest ∧
      decode w = .ok i ∧ i ≠ .srst ∧ t = (s.tick rest).running i) ∨
    (s.phase = .run ∧ t.phase = .idle ∧ s.due = true ∧ sequencer s = .next t ∧
      t.status = { busy := false, done := true, err := 0#4, opc := s.status.opc }) ∨
    (s.phase = .idle ∧ t.phase = .error ∧ ∃ w rest c, s.port.inbox = .write 4 0x004 w :: rest ∧
      c ∈ [1#4, 2#4, 3#4, 4#4] ∧ (c = 4#4 ↔ ∀ i, decode w ≠ .ok i) ∧
      t = { s.tick rest with status := { busy := false, done := false, err := c, opc := w.extractLsb' 0 8 } }) ∨
    (t.phase = .idle ∧ s.due = false ∧
      (∃ rest, s.port.inbox = .reset :: rest ∨ s.port.inbox = .write 4 0x004 0x000000FF#32 :: rest) ∧
      t.status = State.reset.status ∧ t.req = State.reset.req ∧ t.work = State.reset.work ∧
      t.enc = State.reset.enc ∧ t.count = State.reset.count ∧ t.mem = [])

/-- While a command runs and is not yet due, what the host does changes the model's port alone (rules R64, R69, R70),
unless it resets the core. -/
def Obligations.RunningCommandHoldsItsState : Prop :=
  ∀ s t : State, s.phase = .run → s.due = false → step s = .next t →
    (∃ p, t = { s with port := p }) ∨
    ((∃ rest, s.port.inbox = .reset :: rest ∨ s.port.inbox = .write 4 0x004 0x000000FF#32 :: rest) ∧
      t.status = State.reset.status ∧ t.req = State.reset.req ∧ t.work = State.reset.work ∧
      t.enc = State.reset.enc ∧ t.count = State.reset.count ∧ t.mem = [])

/-! ### The commands (rules R113 to R162) -/

/-- The lengths a command that hashes the request needs (rule R101's `len`). -/
def lengthsFit (s : State) : Prop :=
  s.req.seedLen.toNat ≤ 256 ∧ s.req.passLen.toNat ≤ 256 ∧
  (s.cfg.reqNonempty = true → 1 ≤ s.req.seedLen.toNat ∧ 1 ≤ s.req.passLen.toNat)

/-- A supported selector (rule R101's `alg`). -/
def selectorSupported (s : State) : Prop := s.req.alg = 1#32 ∨ s.req.alg = 2#32

/-- `M0` (rule R112), byte by byte. -/
def initialMessage (s : State) : List Byte :=
  (List.range s.req.seedLen.toNat).map (fun k => Memory.read s.mem (0x100 + k)) ++
    (List.range s.req.passLen.toNat).map (fun k => Memory.read s.mem (0x200 + k))

/-- Rule R113: `HASH0`. Its checks in their order; otherwise it completes with the digest of seed and passphrase
in `DIGEST`, both counters 0, and nothing else written. -/
def Obligations.HashZeroDigestsSeedAndPassphrase : Prop :=
  ∀ s : State, s.phase = .idle →
    encode .hash0 = 0x00000001#32 ∧
    (¬ lengthsFit s → exec .hash0 s = .next (s.erred .hash0 .invalidArgument)) ∧
    (lengthsFit s → ¬ selectorSupported s → exec .hash0 s = .next (s.erred .hash0 .unsupportedAlgorithm)) ∧
    (lengthsFit s → selectorSupported s →
      CompletesAs .hash0 s
        (s.completed .hash0 { s.work with digest := Config.digest s.req.alg (initialMessage s) } 0#32 0#32))

/-- Rule R114: `REHASH`. It completes with the digest of the eight fold bytes in `DIGEST` and `NREHASH = 1`. -/
def Obligations.RehashDigestsTheFold : Prop :=
  ∀ s : State, s.phase = .idle →
    encode .rehash = 0x00000004#32 ∧
    (¬ selectorSupported s → exec .rehash s = .next (s.erred .rehash .unsupportedAlgorithm)) ∧
    (selectorSupported s →
      CompletesAs .rehash s
        (s.completed .rehash { s.work with digest := Config.digest s.req.alg s.work.fold.toList } 0#32 1#32))

/-- Rule R122: `XTR`. It makes no check and completes with the four registers extracted from `DIGEST`; the host
then reads `AA .. DD` equal to `DIGEST0 .. DIGEST3`. -/
def Obligations.ExtractorWritesTheFourRegisters : Prop :=
  ∀ s : State, s.phase = .idle →
    encode .xtr = 0x00000002#32 ∧
    ∃ t, CompletesAs .xtr s t ∧
      t = s.completed .xtr { s.work with regs := extract s.work.digest } 0#32 0#32 ∧
      slotWord t .aa = slotWord t (.digest 0) ∧ slotWord t .bb = slotWord t (.digest 1) ∧
      slotWord t .cc = slotWord t (.digest 2) ∧ slotWord t .dd = slotWord t (.digest 3)

/-- Rule R125: `FOLD`. It makes no check and completes with the fold of the four registers, `NFOLD = 1`; the host
then reads `FOLD0 = AA ^ CC` and `FOLD1 = BB ^ DD`. -/
def Obligations.FolderWritesTheFold : Prop :=
  ∀ s : State, s.phase = .idle →
    encode .fold = 0x00000003#32 ∧
    ∃ t, CompletesAs .fold s t ∧
      t = s.completed .fold { s.work with fold := foldF s.work.regs } 1#32 0#32 ∧
      slotWord t (.fold 0) = s.work.regs.aa ^^^ s.work.regs.cc ∧
      slotWord t (.fold 1) = s.work.regs.bb ^^^ s.work.regs.dd

/-- Rule R132: `STEP`. Re-hash, extract from the new digest, fold the new registers; both counters 1. -/
def Obligations.StepDoesOneRound : Prop :=
  ∀ s : State, s.phase = .idle →
    encode .step = 0x00000012#32 ∧
    (¬ selectorSupported s → exec .step s = .next (s.erred .step .unsupportedAlgorithm)) ∧
    (selectorSupported s →
      CompletesAs .step s
        (s.completed .step
          { s.work with
            digest := Config.digest s.req.alg s.work.fold.toList
            regs := extract (Config.digest s.req.alg s.work.fold.toList)
            fold := foldF (extract (Config.digest s.req.alg s.work.fold.toList)) } 1#32 1#32))

/-- Rule R131: `CHAIN`. Its checks in their order; otherwise it completes with `DIGEST = d_n`,
`(AA, BB, CC, DD) = g_n` and `FOLD = f_n` of rule R130 for `n = sext_32(SEQ)`, `NFOLD = n + 1` (exactly, as an
unsigned 32-bit number) and `NREHASH = n`, and with no other register written. -/
def Obligations.ChainComputesTheFoldOfTheSequence : Prop :=
  ∀ s : State, s.phase = .idle →
    encode .chain = 0x00000010#32 ∧
    (s.req.seq.toInt < 0 ∨ ¬ lengthsFit s → exec .chain s = .next (s.erred .chain .invalidArgument)) ∧
    (0 ≤ s.req.seq.toInt → lengthsFit s → ¬ selectorSupported s →
      exec .chain s = .next (s.erred .chain .unsupportedAlgorithm)) ∧
    (∀ n : Nat, s.req.seq.toInt = n → lengthsFit s → selectorSupported s →
      (BitVec.ofNat 32 (n + 1)).toNat = n + 1 ∧
      CompletesAs .chain s
        (s.completed .chain (chainWork s.req.alg (initialMessage s) n s.work.value)
          (BitVec.ofNat 32 (n + 1)) (BitVec.ofNat 32 n)))

/-- Rule R141: `ENC64`. It makes no check and completes with the fold as a 64-bit number, first byte on top. -/
def Obligations.LongEncoderWritesTheValue : Prop :=
  ∀ s : State, s.phase = .idle →
    encode .enc64 = 0x00000005#32 ∧
    CompletesAs .enc64 s (s.completed .enc64 { s.work with value := enc64 s.work.fold } 0#32 0#32)

/-- Rule R152: `WENC`. With a dictionary of another size than 2048 it raises the error with code 3; with one of
2048 entries it completes with parity, indices, string and length of `VALUE`, and writes no other register
and no byte outside `OTPSTR`. -/
def Obligations.WordEncoderWritesTheSixWords : Prop :=
  ∀ s : State, s.phase = .idle → Memory.wf s.mem = true →
    encode .wenc = 0x00000006#32 ∧
    (s.cfg.dict.entries.length ≠ 2048 → exec .wenc s = .next (s.erred .wenc .dictionaryConfiguration)) ∧
    (s.cfg.dict.entries.length = 2048 → ∃ t, CompletesAs .wenc s t ∧
      t.status = { busy := false, done := true, err := 0#4, opc := 0x06#8 } ∧
      t.req = s.req ∧ t.work = s.work ∧ t.cfg = s.cfg ∧ t.count = { nfold := 0#32, nrehash := 0#32 } ∧
      t.holdsOtp s.work.value ∧ t.port.inbox = s.port.inbox ∧ t.port.reads = s.port.reads ∧
      ∀ a, ¬ (0x080 ≤ a ∧ a < 0x080 + 29) → Memory.read t.mem a = Memory.read s.mem a)

/-- Rule R160: `DERIVE`. Its checks in their order; otherwise it completes with the chain's registers as `CHAIN`
leaves them, `VALUE = Enc64(f_n)`, and the encoding of that value. -/
def Obligations.DeriveComposesTheWholeDerivation : Prop :=
  ∀ s : State, s.phase = .idle → Memory.wf s.mem = true →
    encode .derive = 0x00000011#32 ∧
    (s.req.seq.toInt < 0 ∨ ¬ lengthsFit s → exec .derive s = .next (s.erred .derive .invalidArgument)) ∧
    (0 ≤ s.req.seq.toInt → lengthsFit s → ¬ selectorSupported s →
      exec .derive s = .next (s.erred .derive .unsupportedAlgorithm)) ∧
    (0 ≤ s.req.seq.toInt → lengthsFit s → selectorSupported s → s.cfg.dict.entries.length ≠ 2048 →
      exec .derive s = .next (s.erred .derive .dictionaryConfiguration)) ∧
    (∀ n : Nat, s.req.seq.toInt = n → lengthsFit s → selectorSupported s → s.cfg.dict.entries.length = 2048 →
      ∃ t, CompletesAs .derive s t ∧
      t.status = { busy := false, done := true, err := 0#4, opc := 0x11#8 } ∧ t.req = s.req ∧ t.cfg = s.cfg ∧
      t.work = chainWork s.req.alg (initialMessage s) n
        (enc64 (foldF (extract (chainDigest s.req.alg (initialMessage s) n)))) ∧
      t.holdsOtp t.work.value ∧
      t.count = { nfold := BitVec.ofNat 32 (n + 1), nrehash := BitVec.ofNat 32 n } ∧
      t.port.inbox = s.port.inbox ∧ t.port.reads = s.port.reads ∧
      ∀ a, ¬ (0x080 ≤ a ∧ a < 0x080 + 29) → Memory.read t.mem a = Memory.read s.mem a)

/-- A command that raises no error in `IDLE` runs to its completion: it completes in some state `t`, and if host
transactions come in between, none of them a reset, then after at most as many steps as it lets transactions pass, and
one more, the run from the running state has reached `t`, with the port the host has then left (rules R95, R210). That
the time is counted in host transactions is the model's choice (log entry 4). -/
def Obligations.AcceptedCommandRunsToCompletion : Prop :=
  ∀ (s : State) (i : Instr), s.phase = .idle → i ≠ .srst → (∀ e, exec i s ≠ .next (s.erred i e)) →
    ∃ t, CompletesAs i s t ∧
      (s.port.latency ≠ 0 → (∀ e ∈ s.port.inbox, e.wf = true ∧ eventResets e = false) →
        ∃ n p, n ≤ s.port.latency + 1 ∧ p.wait = 0 ∧
          Host.Core.run Sys2Proof.core n (s.running i) = .next { t with port := p })

/-- Rule R94 steps 1 and 2: a command written while a command runs or an error is recorded is dropped, unless it
is `SRST`. -/
def Obligations.CommandOutsideIdleIsDropped : Prop :=
  ∀ (s : State) (i : Instr), s.phase ≠ .idle → i ≠ .srst → exec i s = .next s

/-- No command but `SRST` writes a request register or a byte of the two request buffers, neither when it is
written to `CMD` nor when it completes (the spec's own inference: rule R42, which it marks as derived from the
write sets of rule R101). -/
def Obligations.CommandsKeepTheRequest : Prop :=
  ∀ (s t : State), Memory.wf s.mem = true →
    ((∃ i, i ≠ .srst ∧ exec i s = .next t) ∨ sequencer s = .next t) →
    t.req = s.req ∧ ∀ a, 0x100 ≤ a → a < 0x300 → Memory.read t.mem a = Memory.read s.mem a

/-! ### Errors (rules R170 to R178) -/

/-- Rule R174: a word that is no command, written while `pc = IDLE`, raises `IllegalCommand`: code 4, `OPC` its
bits 7:0, nothing else changed; in the other phases it is dropped. -/
def Obligations.IllegalWordRaisesIllegalCommand : Prop :=
  ∀ (s : State) (w : Word) (rest : List HostEvent), s.due = false →
    s.port.inbox = .write 4 0x004 w :: rest →
    w ∉ [0x01#32, 0x02#32, 0x03#32, 0x04#32, 0x05#32, 0x06#32, 0x10#32, 0x11#32, 0x12#32, 0xFF#32] →
    (s.phase = .idle → step s = .next
      { s.tick rest with
        status := { busy := false, done := false, err := 4#4, opc := w.extractLsb' 0 8 } }) ∧
    (s.phase ≠ .idle → step s = .next (s.tick rest))

/-- Rule R171: `InvalidArgument` has code 1; when it is raised, and by which commands. -/
def Obligations.InvalidArgumentIsRaisedExactly : Prop :=
  errorCode .invalidArgument = 1#4 ∧
  ∀ (s : State) (i : Instr), s.phase = .idle →
    (exec i s = .next (s.erred i .invalidArgument) ↔
      (i = .chain ∨ i = .derive) ∧ s.req.seq.getLsbD 31 = true ∨
      (i = .hash0 ∨ i = .chain ∨ i = .derive) ∧ ¬ lengthsFit s)

/-- Rule R172, under the priority of rule R175: `UnsupportedAlgorithm` has code 2; when it is raised, and by which
commands. -/
def Obligations.UnsupportedAlgorithmIsRaisedExactly : Prop :=
  errorCode .unsupportedAlgorithm = 2#4 ∧
  ∀ (s : State) (i : Instr), s.phase = .idle →
    (exec i s = .next (s.erred i .unsupportedAlgorithm) ↔
      i ∈ [Instr.hash0, .rehash, .step, .chain, .derive] ∧ ¬ selectorSupported s ∧
      ((i = .hash0 ∨ i = .chain ∨ i = .derive) → lengthsFit s) ∧
      ((i = .chain ∨ i = .derive) → s.req.seq.getLsbD 31 = false))

/-- Rule R173, under the priority of rule R175: `DictionaryConfigurationError` has code 3; when it is raised, and by
which commands. A dictionary of another size may hold any entries at all. -/
def Obligations.DictionaryErrorIsRaisedExactly : Prop :=
  errorCode .dictionaryConfiguration = 3#4 ∧
  ∀ (s : State) (i : Instr), s.phase = .idle →
    (exec i s = .next (s.erred i .dictionaryConfiguration) ↔
      (i = .wenc ∨ i = .derive) ∧ s.cfg.dict.entries.length ≠ 2048 ∧
      (i = .derive → s.req.seq.getLsbD 31 = false ∧ lengthsFit s ∧ selectorSupported s))

/-- Rules R177, R178: in the `ERROR` phase a step leaves `STATUS` and every register as they are, unless it is a reset
or carries `SRST`, which restore the reset state. -/
def Obligations.ErrorPhaseIsSticky : Prop :=
  ∀ s t : State, s.phase = .error → step s = .next t →
    (t.status = s.status ∧ t.req = s.req ∧ t.work = s.work ∧ t.enc = s.enc ∧ t.count = s.count ∧ t.mem = s.mem) ∨
    ((∃ rest, s.port.inbox = .reset :: rest ∨ s.port.inbox = .write 4 0x004 0x000000FF#32 :: rest) ∧
      t.status = State.reset.status ∧ t.req = State.reset.req ∧ t.work = State.reset.work ∧
      t.enc = State.reset.enc ∧ t.count = State.reset.count ∧ t.mem = [])

/-! ### The host interface (rules R61 to R71, R99) -/

/-- Rule R61: where the registers stand, and what a read gives for the current state. -/
def Obligations.RegisterMapAsListed : Prop :=
  ∀ s : State,
    (slotWord s (slotAt 0x000) = 0x4F545031#32 ∧ slotWord s (slotAt 0x004) = 0#32 ∧
      slotWord s (slotAt 0x008) = s.status.word ∧ slotWord s (slotAt 0x00C) = s.req.alg ∧
      slotWord s (slotAt 0x010) = s.req.seq ∧ slotWord s (slotAt 0x014) = s.req.seedLen ∧
      slotWord s (slotAt 0x018) = s.req.passLen ∧ slotWord s (slotAt 0x01C) = s.count.nfold ∧
      slotWord s (slotAt 0x020) = s.count.nrehash) ∧
    (slotWord s (slotAt 0x040) = s.work.regs.aa ∧ slotWord s (slotAt 0x044) = s.work.regs.bb ∧
      slotWord s (slotAt 0x048) = s.work.regs.cc ∧ slotWord s (slotAt 0x04C) = s.work.regs.dd ∧
      slotWord s (slotAt 0x058) = s.work.value.extractLsb' 0 32 ∧
      slotWord s (slotAt 0x05C) = s.work.value.extractLsb' 32 32 ∧
      slotWord s (slotAt 0x060) = s.enc.parity.setWidth 32 ∧ slotWord s (slotAt 0x064) = s.enc.otpLen) ∧
    (slotWord s (slotAt 0x068) = s.enc.idx.idx0.setWidth 32 ∧
      slotWord s (slotAt 0x06C) = s.enc.idx.idx1.setWidth 32 ∧
      slotWord s (slotAt 0x070) = s.enc.idx.idx2.setWidth 32 ∧
      slotWord s (slotAt 0x074) = s.enc.idx.idx3.setWidth 32 ∧
      slotWord s (slotAt 0x078) = s.enc.idx.idx4.setWidth 32 ∧
      slotWord s (slotAt 0x07C) = s.enc.idx.idx5.setWidth 32) ∧
    (∀ j : Fin 4, ∀ k : Fin 4, lane (slotWord s (slotAt (0x030 + 4 * j))) k = s.work.digest[4 * j.val + k.val]) ∧
    (∀ j : Fin 2, ∀ k : Fin 4, lane (slotWord s (slotAt (0x050 + 4 * j))) k = s.work.fold[4 * j.val + k.val]) ∧
    (∀ j : Fin 64, ∀ k : Fin 4,
      lane (slotWord s (slotAt (0x100 + 4 * j))) k = Memory.read s.mem (0x100 + 4 * j + k)) ∧
    (∀ j : Fin 64, slotWord s (slotAt (0x200 + 4 * j)) = 0#32) ∧
    (∀ j : Fin 16, ∀ k : Fin 4, lane (slotWord s (slotAt (0x080 + 4 * j))) k =
      if 4 * j.val + k.val < 29 then Memory.read s.mem (0x080 + 4 * j + k) else 0#8)

/-- Rule R21: the bits of the word read at the offset of `STATUS`. -/
def Obligations.StatusWordLayout : Prop :=
  ∀ t : Status, t.word.getLsbD 0 = t.busy ∧ t.word.getLsbD 1 = t.done ∧ t.word.extractLsb' 2 2 = 0#2 ∧
    t.word.extractLsb' 4 4 = t.err ∧ t.word.extractLsb' 8 8 = t.opc ∧ t.word.extractLsb' 16 16 = 0#16

/-- Rules R64, R71: a `RegRead` in `IDLE` or `ERROR` returns the register's word and changes no state. -/
def Obligations.ReadOutsideRunReturnsTheRegister : Prop :=
  ∀ (s : State) (off : Nat) (rest : List HostEvent), s.phase ≠ .run →
    s.port.inbox = .read 4 off :: rest → off % 4 = 0 → off ≤ 0xFFC →
    step s = .next
      { s with
        port :=
          { s.port with
            inbox := rest, wait := s.port.wait - 1, reads := slotWord s (slotAt off) :: s.port.reads } }

/-- A `RegRead` while a command runs (rule R70). The registers it names as defined return their word; a working or
result register returns a free value, the next one of the model's (log entry 5); no register changes. The words of
the `OTPSTR` window that hold unimplemented bytes are left to the statement on rule R66 (log entry 6). -/
def Obligations.ReadWhileRunning : Prop :=
  ∀ (s : State) (off : Nat) (rest : List HostEvent), s.phase = .run → s.due = false →
    s.port.inbox = .read 4 off :: rest → off % 4 = 0 → off ≤ 0xFFC →
    ∃ v t, step s = .next t ∧ t.port.reads = v :: s.port.reads ∧ t.port.inbox = rest ∧
      t.status = s.status ∧ t.req = s.req ∧ t.work = s.work ∧ t.enc = s.enc ∧ t.count = s.count ∧
      t.mem = s.mem ∧ t.cfg = s.cfg ∧
      (off = 0x000 → v = 0x4F545031#32) ∧ (off = 0x008 → v = s.status.word) ∧
      (off ∈ [0x00C, 0x010, 0x014, 0x018] ∨ (0x100 ≤ off ∧ off ≤ 0x1FC) → v = slotWord s (slotAt off)) ∧
      (off = 0x004 ∨ (0x200 ≤ off ∧ off ≤ 0x2FC) → v = 0#32) ∧
      ((0x01C ≤ off ∧ off ≤ 0x020) ∨ (0x030 ≤ off ∧ off ≤ 0x098) → v = Config.freeRead s.port.draws)

/-- Rule R66: a reserved offset reads as zero and ignores writes, and the bytes of the `OTPSTR` window at index 29
and above read as zero, in every phase. That these bytes read as zero in `RUN` too is the model's reading of rule R66
against rule R70 (log entry 6). -/
def Obligations.ReservedOffsetsReadAsZero : Prop :=
  ∀ (s : State) (off : Nat) (rest : List HostEvent), s.due = false → off % 4 = 0 →
    ((0x024 ≤ off ∧ off ≤ 0x02C) ∨ (0x0C0 ≤ off ∧ off ≤ 0x0FC) ∨ (0x300 ≤ off ∧ off ≤ 0xFFC) →
      (s.port.inbox = .read 4 off :: rest →
        ∃ t, step s = .next t ∧ t = (s.tick rest).giveRead 0#32) ∧
      (∀ v, s.port.inbox = .write 4 off v :: rest → step s = .next (s.tick rest))) ∧
    (0x09C ≤ off → off ≤ 0x0BC →
      (s.port.inbox = .read 4 off :: rest →
        ∃ t v, step s = .next t ∧ t.port.reads = v :: s.port.reads ∧
          ∀ k : Fin 4, 0x080 + 29 ≤ off + k.val → lane v k = 0#8) ∧
      (∀ v, s.port.inbox = .write 4 off v :: rest → step s = .next (s.tick rest)))

/-- Rules R65, R68: a `RegWrite` to a read-write register in `IDLE` stores all 32 bits of exactly that register:
it reads back as written, every other register reads as before, nothing but storage changes. -/
def Obligations.WriteStoresExactlyThatRegister : Prop :=
  ∀ (s : State) (r : Slot) (v : Word) (rest : List HostEvent), Memory.wf s.mem = true → s.phase = .idle →
    slotAccess r = .rw → s.port.inbox = .write 4 (slotOffset r) v :: rest →
    ∃ t, step s = .next t ∧ slotWord t r = v ∧ (∀ q, q ≠ r → slotWord t q = slotWord s q) ∧
      t.status = s.status ∧ t.enc = s.enc ∧ t.count = s.count ∧ t.cfg = s.cfg ∧
      (∀ a, 0x200 ≤ a → a < 0x300 → Memory.read t.mem a = Memory.read s.mem a)

/-- Rule R65: a `RegWrite` to a word of the `PASSBUF` window in `IDLE` stores its four bytes, the lowest lane at
the lowest index, and changes no other byte and no other register. -/
def Obligations.WriteToPassbufStoresFourBytes : Prop :=
  ∀ (s : State) (j : Fin 64) (v : Word) (rest : List HostEvent), Memory.wf s.mem = true → s.phase = .idle →
    s.port.inbox = .write 4 (0x200 + 4 * j) v :: rest →
    ∃ m, step s = .next { s.tick rest with mem := m } ∧
      (∀ k : Fin 4, Memory.read m (0x200 + 4 * j + k) = lane v k) ∧
      ∀ a, ¬ (0x200 + 4 * j.val ≤ a ∧ a < 0x200 + 4 * j.val + 4) → Memory.read m a = Memory.read s.mem a

/-- Rule R69: while a command runs or an error is recorded every `RegWrite` is ignored, except the one that
carries `SRST`. -/
def Obligations.WritesOutsideIdleAreIgnored : Prop :=
  ∀ (s : State) (off : Nat) (v : Word) (rest : List HostEvent), s.phase ≠ .idle → s.due = false →
    s.port.inbox = .write 4 off v :: rest → off % 4 = 0 → off ≤ 0xFFC →
    (¬ (off = 0x004 ∧ v = 0x000000FF#32) → step s = .next (s.tick rest)) ∧
    (off = 0x004 ∧ v = 0x000000FF#32 → step s = .next (s.tick rest).resetCore)

/-- Rule R67: a host write to a read-only register is ignored in every phase. -/
def Obligations.WritesToReadOnlyRegistersAreIgnored : Prop :=
  ∀ (s : State) (r : Slot) (v : Word) (rest : List HostEvent), s.due = false → slotAccess r = .ro →
    s.port.inbox = .write 4 (slotOffset r) v :: rest → step s = .next (s.tick rest)

/-- Rule R99: `WAIT` reads `STATUS`; it is done when the word has `BUSY = 0` and is repeated while it has 1. -/
def Obligations.WaitPollsStatus : Prop :=
  ∀ (s : State) (rest : List HostEvent), s.due = false → s.port.inbox = .poll :: rest →
    step s = .next
      ((if s.status.busy = true then s.tick (.poll :: rest) else s.tick rest).giveRead s.status.word)

/-- Rules R27, R184: nothing but `HASH0`, `CHAIN` and `DERIVE` depends on the passphrase. Two states that differ in
`PASSBUF` alone, at a step that runs none of the three, stop alike or go to states that differ in `PASSBUF`
alone: what the host has read, too, is the same. -/
def Obligations.PassphraseIsReadByHashingAlone : Prop :=
  ∀ s t : State, s.inv = true → t.inv = true → SameButPassphrase s t → ¬ s.passphraseUsed →
    (∃ s' t', step s = .next s' ∧ step t = .next t' ∧ SameButPassphrase s' t') ∨
    (∃ r, step s = .refused r ∧ step t = .refused r)

/-! ### The pure functions (rules R120 to R149) -/

/-- The closed form of `Extract`, and that it is a bijection (the spec's own inference: rule R121, which it marks
as derived from rules R120 and R11). -/
def Obligations.ExtractReadsLittleEndianGroups : Prop :=
  (∀ d : Vector Byte 16,
    extract d =
      { aa := le32 d[0] d[1] d[2] d[3], bb := le32 d[4] d[5] d[6] d[7]
        cc := le32 d[8] d[9] d[10] d[11], dd := le32 d[12] d[13] d[14] d[15] } ∧
    d.toList = lebytes4 (extract d).aa ++ lebytes4 (extract d).bb ++ lebytes4 (extract d).cc
      ++ lebytes4 (extract d).dd) ∧
  ∀ g : Regs, ∃ d, extract d = g

/-- The fold of an extracted digest is its first half xor its second half (the spec's own inference: rule R124,
which it marks as derived from rules R121 and R123). -/
def Obligations.FoldOfExtractIsHalfXorHalf : Prop :=
  ∀ (d : Vector Byte 16) (j : Fin 8), (foldF (extract d))[j] = d[j.val] ^^^ d[j.val + 8]

/-- Rule R140: the closed form of `Enc64`: `f[0]` is bits 63:56 and `f[7]` bits 7:0. -/
def Obligations.LongEncoderIsBigEndian : Prop :=
  ∀ f : Vector Byte 8, enc64 f =
    f[0].setWidth 64 <<< 56 ||| f[1].setWidth 64 <<< 48 ||| f[2].setWidth 64 <<< 40 |||
    f[3].setWidth 64 <<< 32 ||| f[4].setWidth 64 <<< 24 ||| f[5].setWidth 64 <<< 16 |||
    f[6].setWidth 64 <<< 8 ||| f[7].setWidth 64

/-- The value of a fold: its top half is the byte swap of `AA ^ CC`, its low half that of `BB ^ DD`; and `Enc64` is
a bijection (the spec's own inferences: rules R142 and R143, which it marks as derived from rules R140 and R123). -/
def Obligations.ValueIsTheByteSwapOfTheFold : Prop :=
  (∀ g : Regs,
    (enc64 (foldF g)).extractLsb' 32 32 = be32 (lane (g.aa ^^^ g.cc) 0) (lane (g.aa ^^^ g.cc) 1)
      (lane (g.aa ^^^ g.cc) 2) (lane (g.aa ^^^ g.cc) 3) ∧
    (enc64 (foldF g)).extractLsb' 0 32 = be32 (lane (g.bb ^^^ g.dd) 0) (lane (g.bb ^^^ g.dd) 1)
      (lane (g.bb ^^^ g.dd) 2) (lane (g.bb ^^^ g.dd) 3)) ∧
  (∀ f f' : Vector Byte 8, enc64 f = enc64 f' → f = f') ∧ ∀ v : BitVec 64, ∃ f, enc64 f = v

/-- The parity is `(E + 2 * O) mod 4`, with `E` and `O` the numbers of 1 bits at even and at odd positions, and the
sum of the groups is at most 96 (the spec's own inference: rule R146, which it marks as derived from R145). -/
def Obligations.ParityCountsEvenAndOddBits : Prop :=
  ∀ v : BitVec 64, paritySum v ≤ 96 ∧
    (parity v).toNat =
      ((List.range 32).countP (fun k => v.getLsbD (2 * k)) +
        2 * (List.range 32).countP (fun k => v.getLsbD (2 * k + 1))) % 4

/-- Rules R147, R148: which bits of the value each index holds: 63:53, 52:42, 41:31, 30:20, 19:9, and for the sixth
the nine bits 8:0 above the two of the parity. -/
def Obligations.IndicesAreTheBitsOfTheValue : Prop :=
  ∀ v : BitVec 64, indices v =
    { idx0 := v.extractLsb' 53 11, idx1 := v.extractLsb' 42 11, idx2 := v.extractLsb' 31 11
      idx3 := v.extractLsb' 20 11, idx4 := v.extractLsb' 9 11, idx5 := v.extractLsb' 0 9 ++ parity v }

/-- The value and its parity can be recovered from the six indices (the spec's own inference: rule R149, which it
marks as derived from rules R145, R147 and R148). -/
def Obligations.IndicesCoverEveryBit : Prop :=
  ∀ v : BitVec 64,
    v = ((indices v).idx0.setWidth 64 <<< 53) ||| ((indices v).idx1.setWidth 64 <<< 42) |||
      ((indices v).idx2.setWidth 64 <<< 31) ||| ((indices v).idx3.setWidth 64 <<< 20) |||
      ((indices v).idx4.setWidth 64 <<< 9) ||| ((indices v).idx5.setWidth 64 >>> 2) ∧
    (indices v).idx5.extractLsb' 0 2 = parity v

/-- Rule R151: with a dictionary of 2048 entries the string of every value is the six words joined by single
spaces, and its length is five more than those of the six words together; it is between 11 and 29 (rule R34: the
dictionary keeps the contract of rule R150, which every dictionary of 2048 entries in the model does, log entry 7). -/
def Obligations.OtpStringIsSixWordsAndFits : Prop :=
  ∀ (dict : Dictionary) (v : BitVec 64), dict.entries.length = 2048 →
    otpString dict.entries v = some (otpText dict.entries v) ∧
    (otpText dict.entries v).length =
      5 + ((indices v).toList.map (fun i => (entryAt dict.entries i).length)).sum ∧
    11 ≤ (otpText dict.entries v).length ∧ (otpText dict.entries v).length ≤ Config.strMax

/-- With a dictionary that keeps its contract (rule R150: conditions on the configuration, which a model takes as
premises) every index maps to a distinct, non-empty ASCII word, and the string of every value is ASCII. -/
def Obligations.WellFormedDictionaryIsABijection : Prop :=
  ∀ dict : List (List Byte), dictOk dict = true →
    (∀ i j : BitVec 11, entryAt dict i = entryAt dict j → i = j) ∧
    (∀ i : BitVec 11, entryAt dict i ≠ []) ∧
    ∀ (v : BitVec 64), ∀ b ∈ otpText dict v, b.toNat < 128

/-! ### Laws of the chain (rules R134, R138, R163) -/

/-- `CHAIN` with `SEQ = n` and then `STEP` leaves `DIGEST`, `AA .. DD` and `FOLD` as `CHAIN` with `SEQ = n + 1` does
on the same request (the spec's own inference: rule R134, which it marks as derived from R130 to R132). -/
def Obligations.ChainThenStepIsTheNextChain : Prop :=
  ∀ (s s' : State) (n : Nat), s.phase = .idle → s.req.seq.toInt = n → n + 1 < 2 ^ 31 → lengthsFit s →
    selectorSupported s → s' = { s with req := { s.req with seq := BitVec.ofNat 32 (n + 1) } } →
    ∃ t u, CompleteSeq [.chain, .step] s t ∧ CompletesAs .chain s' u ∧
      t.work.digest = u.work.digest ∧ t.work.regs = u.work.regs ∧ t.work.fold = u.work.fold

/-- What `CHAIN` leaves in `DIGEST`, `AA .. DD`, `FOLD` and the counters is a function of the selector, the sequence
number, the lengths and the bytes within them (the spec's own inference: rule R138, which it marks as derived
from R130 and R131). -/
def Obligations.ChainDependsOnTheRequestAlone : Prop :=
  ∀ s t : State, s.phase = .idle → t.phase = .idle → s.req = t.req → lengthsFit s → lengthsFit t →
    selectorSupported s → 0 ≤ s.req.seq.toInt →
    (∀ k < s.req.seedLen.toNat, Memory.read s.mem (0x100 + k) = Memory.read t.mem (0x100 + k)) →
    (∀ k < s.req.passLen.toNat, Memory.read s.mem (0x200 + k) = Memory.read t.mem (0x200 + k)) →
    ∃ s' t', CompletesAs .chain s s' ∧ CompletesAs .chain t t' ∧ s'.work.digest = t'.work.digest ∧
      s'.work.regs = t'.work.regs ∧ s'.work.fold = t'.work.fold ∧ s'.count = t'.count

/-- `DERIVE` leaves in every working and result register, the counters apart, what `CHAIN`, `ENC64`, `WENC` leave,
and what `HASH0`, `XTR`, `FOLD`, then `n` times `STEP`, then `ENC64`, `WENC` leave, each run to completion on the
same request, when no check fails: `SEQ` not negative, the lengths fit, the selector is supported, the dictionary has
2048 entries (the spec's own inference: rule R163, which it marks as derived from R160, R131, R132, R134, R141
and R152). -/
def Obligations.DeriveEqualsItsComponents : Prop :=
  ∀ (s : State) (n : Nat), s.phase = .idle → Memory.wf s.mem = true → s.req.seq.toInt = n → lengthsFit s →
    selectorSupported s → s.cfg.dict.entries.length = 2048 →
    ∃ t u v, CompletesAs .derive s t ∧ CompleteSeq [.chain, .enc64, .wenc] s u ∧
      CompleteSeq ([.hash0, .xtr, .fold] ++ List.replicate n .step ++ [.enc64, .wenc]) s v ∧
      SameResults t u ∧ SameResults t v
end

