-- ==== Sys2Proof/Laws/State.lean ====
section
/-! SUPPORT. What each update of the state does to each field: one lemma per field and update. -/

namespace Sys2Proof.Machine

@[simp] theorem State.examine_status (s : State) (o : BitVec 8) : (s.examine o).status = s.status.examined o := rfl
@[simp] theorem State.examine_req (s : State) (o : BitVec 8) : (s.examine o).req = s.req := rfl
@[simp] theorem State.examine_work (s : State) (o : BitVec 8) : (s.examine o).work = s.work := rfl
@[simp] theorem State.examine_enc (s : State) (o : BitVec 8) : (s.examine o).enc = s.enc := rfl
@[simp] theorem State.examine_count (s : State) (o : BitVec 8) : (s.examine o).count = s.count := rfl
@[simp] theorem State.examine_mem (s : State) (o : BitVec 8) : (s.examine o).mem = s.mem := rfl
@[simp] theorem State.examine_cfg (s : State) (o : BitVec 8) : (s.examine o).cfg = s.cfg := rfl
@[simp] theorem State.examine_port (s : State) (o : BitVec 8) : (s.examine o).port = s.port := rfl

@[simp] theorem State.raise_status (s : State) (e : ErrorCode) : (s.raise e).status = s.status.raised e := rfl
@[simp] theorem State.raise_req (s : State) (e : ErrorCode) : (s.raise e).req = s.req := rfl
@[simp] theorem State.raise_work (s : State) (e : ErrorCode) : (s.raise e).work = s.work := rfl
@[simp] theorem State.raise_enc (s : State) (e : ErrorCode) : (s.raise e).enc = s.enc := rfl
@[simp] theorem State.raise_count (s : State) (e : ErrorCode) : (s.raise e).count = s.count := rfl
@[simp] theorem State.raise_mem (s : State) (e : ErrorCode) : (s.raise e).mem = s.mem := rfl
@[simp] theorem State.raise_cfg (s : State) (e : ErrorCode) : (s.raise e).cfg = s.cfg := rfl
@[simp] theorem State.raise_port (s : State) (e : ErrorCode) : (s.raise e).port = s.port := rfl

@[simp] theorem State.accept_status (s : State) : (s.accept).status = s.status.accepted := rfl
@[simp] theorem State.accept_req (s : State) : (s.accept).req = s.req := rfl
@[simp] theorem State.accept_work (s : State) : (s.accept).work = s.work := rfl
@[simp] theorem State.accept_enc (s : State) : (s.accept).enc = s.enc := rfl
@[simp] theorem State.accept_count (s : State) : (s.accept).count = { nfold := 0#32, nrehash := 0#32 } := rfl
@[simp] theorem State.accept_mem (s : State) : (s.accept).mem = s.mem := rfl
@[simp] theorem State.accept_cfg (s : State) : (s.accept).cfg = s.cfg := rfl
@[simp] theorem State.accept_port (s : State) : (s.accept).port = s.port := rfl

@[simp] theorem State.finish_status (s : State) : (s.finish).status = s.status.finished := rfl
@[simp] theorem State.finish_req (s : State) : (s.finish).req = s.req := rfl
@[simp] theorem State.finish_work (s : State) : (s.finish).work = s.work := rfl
@[simp] theorem State.finish_enc (s : State) : (s.finish).enc = s.enc := rfl
@[simp] theorem State.finish_count (s : State) : (s.finish).count = s.count := rfl
@[simp] theorem State.finish_mem (s : State) : (s.finish).mem = s.mem := rfl
@[simp] theorem State.finish_cfg (s : State) : (s.finish).cfg = s.cfg := rfl
@[simp] theorem State.finish_port (s : State) : (s.finish).port = { s.port with wait := 0 } := rfl

@[simp] theorem State.redraw_status (s : State) : (s.redraw).status = s.status := rfl
@[simp] theorem State.redraw_req (s : State) : (s.redraw).req = s.req := rfl
@[simp] theorem State.redraw_work (s : State) : (s.redraw).work = s.work := rfl
@[simp] theorem State.redraw_enc (s : State) : (s.redraw).enc = s.enc := rfl
@[simp] theorem State.redraw_count (s : State) : (s.redraw).count = s.count := rfl
@[simp] theorem State.redraw_mem (s : State) : (s.redraw).mem = s.mem := rfl
@[simp] theorem State.redraw_cfg (s : State) : (s.redraw).cfg = s.cfg := rfl
@[simp] theorem State.redraw_port (s : State) : (s.redraw).port =
    { s.port with latency := Config.freeLatency s.port.draws, draws := s.port.draws + 1 } := rfl

@[simp] theorem State.setWait_status (s : State) (n : Nat) : (s.setWait n).status = s.status := rfl
@[simp] theorem State.setWait_req (s : State) (n : Nat) : (s.setWait n).req = s.req := rfl
@[simp] theorem State.setWait_work (s : State) (n : Nat) : (s.setWait n).work = s.work := rfl
@[simp] theorem State.setWait_enc (s : State) (n : Nat) : (s.setWait n).enc = s.enc := rfl
@[simp] theorem State.setWait_count (s : State) (n : Nat) : (s.setWait n).count = s.count := rfl
@[simp] theorem State.setWait_mem (s : State) (n : Nat) : (s.setWait n).mem = s.mem := rfl
@[simp] theorem State.setWait_cfg (s : State) (n : Nat) : (s.setWait n).cfg = s.cfg := rfl
@[simp] theorem State.setWait_port (s : State) (n : Nat) : (s.setWait n).port = { s.port with wait := n } := rfl

@[simp] theorem State.resetCore_status (s : State) : (s.resetCore).status = State.reset.status := rfl
@[simp] theorem State.resetCore_req (s : State) : (s.resetCore).req = State.reset.req := rfl
@[simp] theorem State.resetCore_work (s : State) : (s.resetCore).work = State.reset.work := rfl
@[simp] theorem State.resetCore_enc (s : State) : (s.resetCore).enc = State.reset.enc := rfl
@[simp] theorem State.resetCore_count (s : State) : (s.resetCore).count = State.reset.count := rfl
@[simp] theorem State.resetCore_mem (s : State) : (s.resetCore).mem = State.reset.mem := rfl
@[simp] theorem State.resetCore_cfg (s : State) : (s.resetCore).cfg = s.cfg := rfl
@[simp] theorem State.resetCore_port (s : State) : (s.resetCore).port = { s.port with wait := 0 } := rfl

@[simp] theorem State.hash_status (s : State) (m : List Byte) : (s.hash m).status = s.status := rfl
@[simp] theorem State.hash_req (s : State) (m : List Byte) : (s.hash m).req = s.req := rfl
@[simp] theorem State.hash_work (s : State) (m : List Byte) : (s.hash m).work =
    { s.work with digest := Config.digest s.req.alg m } := rfl
@[simp] theorem State.hash_enc (s : State) (m : List Byte) : (s.hash m).enc = s.enc := rfl
@[simp] theorem State.hash_count (s : State) (m : List Byte) : (s.hash m).count = s.count := rfl
@[simp] theorem State.hash_mem (s : State) (m : List Byte) : (s.hash m).mem = s.mem := rfl
@[simp] theorem State.hash_cfg (s : State) (m : List Byte) : (s.hash m).cfg = s.cfg := rfl
@[simp] theorem State.hash_port (s : State) (m : List Byte) : (s.hash m).port = s.port := rfl

@[simp] theorem State.extractRegs_status (s : State) : (s.extractRegs).status = s.status := rfl
@[simp] theorem State.extractRegs_req (s : State) : (s.extractRegs).req = s.req := rfl
@[simp] theorem State.extractRegs_work (s : State) : (s.extractRegs).work =
    { s.work with regs := extract s.work.digest } := rfl
@[simp] theorem State.extractRegs_enc (s : State) : (s.extractRegs).enc = s.enc := rfl
@[simp] theorem State.extractRegs_count (s : State) : (s.extractRegs).count = s.count := rfl
@[simp] theorem State.extractRegs_mem (s : State) : (s.extractRegs).mem = s.mem := rfl
@[simp] theorem State.extractRegs_cfg (s : State) : (s.extractRegs).cfg = s.cfg := rfl
@[simp] theorem State.extractRegs_port (s : State) : (s.extractRegs).port = s.port := rfl

@[simp] theorem State.foldRegs_status (s : State) : (s.foldRegs).status = s.status := rfl
@[simp] theorem State.foldRegs_req (s : State) : (s.foldRegs).req = s.req := rfl
@[simp] theorem State.foldRegs_work (s : State) : (s.foldRegs).work = { s.work with fold := foldF s.work.regs } := rfl
@[simp] theorem State.foldRegs_enc (s : State) : (s.foldRegs).enc = s.enc := rfl
@[simp] theorem State.foldRegs_count (s : State) : (s.foldRegs).count =
    { s.count with nfold := s.count.nfold + 1#32 } := rfl
@[simp] theorem State.foldRegs_mem (s : State) : (s.foldRegs).mem = s.mem := rfl
@[simp] theorem State.foldRegs_cfg (s : State) : (s.foldRegs).cfg = s.cfg := rfl
@[simp] theorem State.foldRegs_port (s : State) : (s.foldRegs).port = s.port := rfl

@[simp] theorem State.rehashFold_status (s : State) : (s.rehashFold).status = s.status := rfl
@[simp] theorem State.rehashFold_req (s : State) : (s.rehashFold).req = s.req := rfl
@[simp] theorem State.rehashFold_work (s : State) : (s.rehashFold).work =
    { s.work with digest := Config.digest s.req.alg s.foldMessage } := rfl
@[simp] theorem State.rehashFold_enc (s : State) : (s.rehashFold).enc = s.enc := rfl
@[simp] theorem State.rehashFold_count (s : State) : (s.rehashFold).count =
    { s.count with nrehash := s.count.nrehash + 1#32 } := rfl
@[simp] theorem State.rehashFold_mem (s : State) : (s.rehashFold).mem = s.mem := rfl
@[simp] theorem State.rehashFold_cfg (s : State) : (s.rehashFold).cfg = s.cfg := rfl
@[simp] theorem State.rehashFold_port (s : State) : (s.rehashFold).port = s.port := rfl

@[simp] theorem State.encodeFold_status (s : State) : (s.encodeFold).status = s.status := rfl
@[simp] theorem State.encodeFold_req (s : State) : (s.encodeFold).req = s.req := rfl
@[simp] theorem State.encodeFold_work (s : State) : (s.encodeFold).work =
    { s.work with value := enc64 s.work.fold } := rfl
@[simp] theorem State.encodeFold_enc (s : State) : (s.encodeFold).enc = s.enc := rfl
@[simp] theorem State.encodeFold_count (s : State) : (s.encodeFold).count = s.count := rfl
@[simp] theorem State.encodeFold_mem (s : State) : (s.encodeFold).mem = s.mem := rfl
@[simp] theorem State.encodeFold_cfg (s : State) : (s.encodeFold).cfg = s.cfg := rfl
@[simp] theorem State.encodeFold_port (s : State) : (s.encodeFold).port = s.port := rfl

@[simp] theorem State.putOtp_status (s : State) (t : List Byte) : (s.putOtp t).status = s.status := rfl
@[simp] theorem State.putOtp_req (s : State) (t : List Byte) : (s.putOtp t).req = s.req := rfl
@[simp] theorem State.putOtp_work (s : State) (t : List Byte) : (s.putOtp t).work = s.work := rfl
@[simp] theorem State.putOtp_enc (s : State) (t : List Byte) : (s.putOtp t).enc =
    { parity := parity s.work.value, idx := indices s.work.value, otpLen := BitVec.ofNat 32 t.length } := rfl
@[simp] theorem State.putOtp_count (s : State) (t : List Byte) : (s.putOtp t).count = s.count := rfl
@[simp] theorem State.putOtp_mem (s : State) (t : List Byte) : (s.putOtp t).mem =
    Memory.writeBytes s.mem otpBase (otpBytes t) := rfl
@[simp] theorem State.putOtp_cfg (s : State) (t : List Byte) : (s.putOtp t).cfg = s.cfg := rfl
@[simp] theorem State.putOtp_port (s : State) (t : List Byte) : (s.putOtp t).port = s.port := rfl

@[simp] theorem State.giveRead_status (s : State) (v : Word) : (s.giveRead v).status = s.status := rfl
@[simp] theorem State.giveRead_req (s : State) (v : Word) : (s.giveRead v).req = s.req := rfl
@[simp] theorem State.giveRead_work (s : State) (v : Word) : (s.giveRead v).work = s.work := rfl
@[simp] theorem State.giveRead_enc (s : State) (v : Word) : (s.giveRead v).enc = s.enc := rfl
@[simp] theorem State.giveRead_count (s : State) (v : Word) : (s.giveRead v).count = s.count := rfl
@[simp] theorem State.giveRead_mem (s : State) (v : Word) : (s.giveRead v).mem = s.mem := rfl
@[simp] theorem State.giveRead_cfg (s : State) (v : Word) : (s.giveRead v).cfg = s.cfg := rfl
@[simp] theorem State.giveRead_port (s : State) (v : Word) : (s.giveRead v).port =
    { s.port with reads := v :: s.port.reads } := rfl

@[simp] theorem State.drawn_status (s : State) : (s.drawn).status = s.status := rfl
@[simp] theorem State.drawn_req (s : State) : (s.drawn).req = s.req := rfl
@[simp] theorem State.drawn_work (s : State) : (s.drawn).work = s.work := rfl
@[simp] theorem State.drawn_enc (s : State) : (s.drawn).enc = s.enc := rfl
@[simp] theorem State.drawn_count (s : State) : (s.drawn).count = s.count := rfl
@[simp] theorem State.drawn_mem (s : State) : (s.drawn).mem = s.mem := rfl
@[simp] theorem State.drawn_cfg (s : State) : (s.drawn).cfg = s.cfg := rfl
@[simp] theorem State.drawn_port (s : State) : (s.drawn).port = { s.port with draws := s.port.draws + 1 } := rfl

@[simp] theorem State.tick_status (s : State) (r : List HostEvent) : (s.tick r).status = s.status := rfl
@[simp] theorem State.tick_req (s : State) (r : List HostEvent) : (s.tick r).req = s.req := rfl
@[simp] theorem State.tick_work (s : State) (r : List HostEvent) : (s.tick r).work = s.work := rfl
@[simp] theorem State.tick_enc (s : State) (r : List HostEvent) : (s.tick r).enc = s.enc := rfl
@[simp] theorem State.tick_count (s : State) (r : List HostEvent) : (s.tick r).count = s.count := rfl
@[simp] theorem State.tick_mem (s : State) (r : List HostEvent) : (s.tick r).mem = s.mem := rfl
@[simp] theorem State.tick_cfg (s : State) (r : List HostEvent) : (s.tick r).cfg = s.cfg := rfl
@[simp] theorem State.tick_port (s : State) (r : List HostEvent) : (s.tick r).port =
    { s.port with inbox := r, wait := s.port.wait - 1 } := rfl

@[simp] theorem Status.examined_busy (t : Status) (o : BitVec 8) : (t.examined o).busy = t.busy := rfl
@[simp] theorem Status.examined_done (t : Status) (o : BitVec 8) : (t.examined o).done = false := rfl
@[simp] theorem Status.examined_err (t : Status) (o : BitVec 8) : (t.examined o).err = t.err := rfl
@[simp] theorem Status.examined_opc (t : Status) (o : BitVec 8) : (t.examined o).opc = o := rfl

@[simp] theorem Status.accepted_busy (t : Status) : (t.accepted).busy = true := rfl
@[simp] theorem Status.accepted_done (t : Status) : (t.accepted).done = t.done := rfl
@[simp] theorem Status.accepted_err (t : Status) : (t.accepted).err = t.err := rfl
@[simp] theorem Status.accepted_opc (t : Status) : (t.accepted).opc = t.opc := rfl

@[simp] theorem Status.finished_busy (t : Status) : (t.finished).busy = false := rfl
@[simp] theorem Status.finished_done (t : Status) : (t.finished).done = true := rfl
@[simp] theorem Status.finished_err (t : Status) : (t.finished).err = t.err := rfl
@[simp] theorem Status.finished_opc (t : Status) : (t.finished).opc = t.opc := rfl

@[simp] theorem Status.raised_busy (t : Status) (e : ErrorCode) : (t.raised e).busy = false := rfl
@[simp] theorem Status.raised_done (t : Status) (e : ErrorCode) : (t.raised e).done = false := rfl
@[simp] theorem Status.raised_err (t : Status) (e : ErrorCode) : (t.raised e).err = errorCode e := rfl
@[simp] theorem Status.raised_opc (t : Status) (e : ErrorCode) : (t.raised e).opc = t.opc := rfl

end Sys2Proof.Machine
end

