-- ==== Sys2Proof/Laws/Bits.lean ====
section
/-! SUPPORT. The byte orders, bit by bit: what a lane of an assembled word is, and what the lanes of a word
assemble to. -/

namespace Sys2Proof.Machine

/-- The two byte orders differ in the order of the bytes alone (rule R11). -/
theorem be32_eq_le32 (a b c d : Byte) : be32 a b c d = le32 d c b a := by
  unfold be32 le32
  generalize (a.setWidth 32 <<< 24 : Word) = w
  generalize (b.setWidth 32 <<< 16 : Word) = x
  generalize (c.setWidth 32 <<< 8 : Word) = y
  generalize (d.setWidth 32 : Word) = z
  ac_rfl

@[simp] theorem lane_le32_zero (a b c d : Byte) : lane (le32 a b c d) 0 = a := by
  apply BitVec.eq_of_getLsbD_eq
  intro k hk
  simp only [lane, le32]
  interval_cases k <;> simp

@[simp] theorem lane_le32_one (a b c d : Byte) : lane (le32 a b c d) 1 = b := by
  apply BitVec.eq_of_getLsbD_eq
  intro k hk
  simp only [lane, le32]
  interval_cases k <;> simp

@[simp] theorem lane_le32_two (a b c d : Byte) : lane (le32 a b c d) 2 = c := by
  apply BitVec.eq_of_getLsbD_eq
  intro k hk
  simp only [lane, le32]
  interval_cases k <;> simp

@[simp] theorem lane_le32_three (a b c d : Byte) : lane (le32 a b c d) 3 = d := by
  apply BitVec.eq_of_getLsbD_eq
  intro k hk
  simp only [lane, le32]
  interval_cases k <;> simp

/-- A word is assembled from its own lanes: `le32(lebytes4(v)) = v` (rule R11). -/
@[simp] theorem le32_lanes (v : Word) : le32 (lane v 0) (lane v 1) (lane v 2) (lane v 3) = v := by
  apply BitVec.eq_of_getLsbD_eq
  intro k hk
  simp only [lane, le32]
  interval_cases k <;> simp

theorem lane_xor (a b : Word) (k : Nat) : lane (a ^^^ b) k = lane a k ^^^ lane b k := by
  apply BitVec.eq_of_getLsbD_eq
  intro i hi
  simp [lane, hi]

/-- An 11-bit index lies inside a dictionary of 2048 entries (rule R149). -/
theorem index_lt (i : BitVec 11) : i.toNat < 2048 := i.isLt

/-- What rule R150 asks of a word. -/
theorem wordOk_iff {w : List Byte} :
    wordOk w = true ↔ 1 ≤ w.length ∧ w.length ≤ 4 ∧ ∀ b ∈ w, b.toNat < 128 := by
  simp [wordOk, and_assoc]

/-- A dictionary of 2048 entries keeps its contract (rule R150, U6). -/
theorem dictionary_contract {d : Dictionary} (h : d.entries.length = 2048) :
    (∀ w ∈ d.entries, wordOk w = true) ∧ d.entries.Nodup := by
  have hd := d.inside
  simpa [dictInside, dictOk, h] using hd

/-- With 2048 entries every lookup finds a word (rule R153 (b)). -/
theorem otpString_isSome {dict : List (List Byte)} (h : dict.length = 2048) (v : BitVec 64) :
    ∃ str, otpString dict v = some str := by
  have hg (i : BitVec 11) : dict[i.toNat]? = some (dict[i.toNat]'(by rw [h]; exact i.isLt)) :=
    List.getElem?_eq_getElem _
  exact ⟨_, by simp only [otpString, lookupWords, Indices.toList, List.mapM_cons, List.mapM_nil, hg,
    Option.bind_eq_bind, Option.bind_some, Option.pure_def, Option.map_some]; rfl⟩

end Sys2Proof.Machine
end

