-- ==== Sys2Proof/Laws/Memory.lean ====
section
/-! SUPPORT. The laws of memory: a read after a write, the canonical form, and equality of memories that read
the same. -/

namespace Sys2Proof.Machine

theorem canonicalFrom_cons {lo k : Nat} {b : Byte} {m : Memory} :
    Memory.canonicalFrom lo ((k, b) :: m) = true ↔
      lo ≤ k ∧ b ≠ Config.unwritten ∧ Memory.canonicalFrom (k + 1) m = true := by
  simp [Memory.canonicalFrom, and_assoc]

theorem canonicalFrom_mono {lo lo' : Nat} {m : Memory} (h : lo' ≤ lo)
    (hm : Memory.canonicalFrom lo m = true) : Memory.canonicalFrom lo' m = true := by
  cases m with
  | nil => rfl
  | cons c m =>
    obtain ⟨k, b⟩ := c
    rw [canonicalFrom_cons] at hm ⊢
    exact ⟨by omega, hm.2⟩

/-- Below its first address a canonical memory reads as unwritten. -/
theorem read_below {lo a : Nat} {m : Memory} (hm : Memory.canonicalFrom lo m = true) (h : a < lo) :
    Memory.read m a = Config.unwritten := by
  induction m generalizing lo with
  | nil => rfl
  | cons c m ih =>
    obtain ⟨k, b⟩ := c
    rw [canonicalFrom_cons] at hm
    have hk : a ≠ k := by omega
    simp only [Memory.read, hk, if_false]
    exact ih hm.2.2 (by omega)

theorem canonicalFrom_write {lo a : Nat} {b : Byte} {m : Memory} (ha : lo ≤ a)
    (hm : Memory.canonicalFrom lo m = true) :
    Memory.canonicalFrom lo (Memory.write m a b) = true := by
  induction m generalizing lo with
  | nil =>
    simp only [Memory.write]
    split
    · rfl
    · rename_i hb; rw [canonicalFrom_cons]; exact ⟨ha, hb, rfl⟩
  | cons c m ih =>
    obtain ⟨k, v⟩ := c
    have hm' := canonicalFrom_cons.mp hm
    simp only [Memory.write]
    split_ifs with h1 h2 h3 h4
    · exact hm
    · rw [canonicalFrom_cons]
      exact ⟨ha, h2, canonicalFrom_mono (by omega) (canonicalFrom_cons.mpr ⟨le_refl k, hm'.2⟩)⟩
    · exact canonicalFrom_mono (by omega) hm'.2.2
    · subst h3; rw [canonicalFrom_cons]; exact ⟨ha, h4, hm'.2.2⟩
    · rw [canonicalFrom_cons]
      exact ⟨hm'.1, hm'.2.1, ih (by omega) hm'.2.2⟩

/-- A read after a write, in a canonical memory. -/
theorem read_write_from {lo a x : Nat} {b : Byte} {m : Memory}
    (hm : Memory.canonicalFrom lo m = true) :
    Memory.read (Memory.write m a b) x = if x = a then b else Memory.read m x := by
  induction m generalizing lo with
  | nil =>
    by_cases hb : b = Config.unwritten
    · simp [Memory.write, hb, Memory.read]
    · simp [Memory.write, hb, Memory.read]
  | cons c m ih =>
    obtain ⟨k, v⟩ := c
    have hm' := canonicalFrom_cons.mp hm
    rcases lt_trichotomy a k with hak | hak | hak
    · by_cases hb : b = Config.unwritten
      · have hw : Memory.write ((k, v) :: m) a b = (k, v) :: m := by simp [Memory.write, hak, hb]
        rw [hw]
        split
        · next hx => rw [hb, hx]; exact read_below (canonicalFrom_cons.mpr ⟨le_refl k, hm'.2⟩) hak
        · rfl
      · have hw : Memory.write ((k, v) :: m) a b = (a, b) :: (k, v) :: m := by simp [Memory.write, hak, hb]
        rw [hw, Memory.read]
    · subst hak
      by_cases hb : b = Config.unwritten
      · have hw : Memory.write ((a, v) :: m) a b = m := by simp [Memory.write, hb]
        rw [hw, Memory.read]
        split
        · next hx => rw [hb, hx]; exact read_below hm'.2.2 (Nat.lt_succ_self a)
        · rfl
      · have hw : Memory.write ((a, v) :: m) a b = (a, b) :: m := by simp [Memory.write, hb]
        rw [hw, Memory.read, Memory.read]
        split <;> rfl
    · have hw : Memory.write ((k, v) :: m) a b = (k, v) :: Memory.write m a b := by
        simp [Memory.write, Nat.not_lt.mpr (Nat.le_of_lt hak), Nat.ne_of_gt hak]
      rw [hw, Memory.read, ih hm'.2.2, Memory.read]
      by_cases hx : x = k
      · simp [hx, Nat.ne_of_lt hak]
      · simp [hx]

theorem canonical_write {a : Nat} {b : Byte} {m : Memory} (hm : Memory.canonical m = true) :
    Memory.canonical (Memory.write m a b) = true :=
  canonicalFrom_write (Nat.zero_le a) hm

theorem read_write {a x : Nat} {b : Byte} {m : Memory} (hm : Memory.canonical m = true) :
    Memory.read (Memory.write m a b) x = if x = a then b else Memory.read m x :=
  read_write_from hm

/-- A write lists no address but the one written. -/
theorem mem_write {a : Nat} {b : Byte} {m : Memory} {c : Host.Cell} (h : c ∈ Memory.write m a b) :
    c ∈ m ∨ c.1 = a := by
  induction m with
  | nil =>
    simp only [Memory.write] at h
    split at h <;> simp_all
  | cons d m ih =>
    obtain ⟨k, v⟩ := d
    simp only [Memory.write] at h
    split_ifs at h
    · exact .inl h
    · rcases List.mem_cons.mp h with rfl | h
      · exact .inr rfl
      · exact .inl h
    · exact .inl (List.mem_cons_of_mem _ h)
    · rcases List.mem_cons.mp h with rfl | h
      · exact .inr rfl
      · exact .inl (List.mem_cons_of_mem _ h)
    · rcases List.mem_cons.mp h with rfl | h
      · exact .inl List.mem_cons_self
      · rcases ih h with h | h
        · exact .inl (List.mem_cons_of_mem _ h)
        · exact .inr h

/-- The addresses that hold a byte, as numbers (rule R61). -/
theorem implemented_iff {a : Nat} : implemented a = true ↔
    (0x080 ≤ a ∧ a < 0x09D) ∨ (0x100 ≤ a ∧ a < 0x200) ∨ (0x200 ≤ a ∧ a < 0x300) := by
  rw [implemented, decide_eq_true_iff]
  rfl

theorem wf_iff {m : Memory} :
    Memory.wf m = true ↔ Memory.canonical m = true ∧ ∀ c ∈ m, implemented c.1 = true := by
  simp [Memory.wf]

theorem wf_write {a : Nat} {b : Byte} {m : Memory} (hm : Memory.wf m = true) (ha : implemented a = true) :
    Memory.wf (Memory.write m a b) = true := by
  rw [wf_iff] at hm ⊢
  refine ⟨canonical_write hm.1, fun c hc => ?_⟩
  rcases mem_write hc with h | h
  · exact hm.2 c h
  · rw [h]; exact ha

theorem canonical_writeBytes {bs : List Byte} {a : Nat} {m : Memory} (hm : Memory.canonical m = true) :
    Memory.canonical (Memory.writeBytes m a bs) = true := by
  induction bs generalizing a m with
  | nil => exact hm
  | cons b bs ih => exact ih (canonical_write hm)

/-- Writing bytes at addresses that hold one keeps memory well formed. -/
theorem wf_writeBytes {bs : List Byte} {a : Nat} {m : Memory} (hm : Memory.wf m = true)
    (ha : ∀ k < bs.length, implemented (a + k) = true) : Memory.wf (Memory.writeBytes m a bs) = true := by
  induction bs generalizing a m with
  | nil => exact hm
  | cons b bs ih =>
    refine ih (wf_write hm (ha 0 (by simp))) (fun k hk => ?_)
    have := ha (k + 1) (by simpa using hk)
    rwa [show a + 1 + k = a + (k + 1) by omega]

/-- A read after a write of bytes. -/
theorem read_writeBytes {bs : List Byte} {a x : Nat} {m : Memory} (hm : Memory.canonical m = true) :
    Memory.read (Memory.writeBytes m a bs) x =
      if a ≤ x ∧ x < a + bs.length then bs.getD (x - a) 0#8 else Memory.read m x := by
  induction bs generalizing a m with
  | nil =>
    have h : ¬ (a ≤ x ∧ x < a + ([] : List Byte).length) := by simp
    rw [if_neg h]; rfl
  | cons b bs ih =>
    rw [Memory.writeBytes, ih (canonical_write hm), read_write hm]
    by_cases hx : x = a
    · subst hx
      have h1 : ¬ (x + 1 ≤ x ∧ x < x + 1 + bs.length) := by omega
      have h2 : x ≤ x ∧ x < x + (b :: bs).length := by simp
      rw [if_neg h1, if_pos h2, if_pos rfl]; simp
    · by_cases h1 : a + 1 ≤ x ∧ x < a + 1 + bs.length
      · have h2 : a ≤ x ∧ x < a + (b :: bs).length := by simp only [List.length_cons]; omega
        rw [if_pos h1, if_pos h2, show x - a = (x - (a + 1)) + 1 by omega]; simp
      · have h2 : ¬ (a ≤ x ∧ x < a + (b :: bs).length) := by simp only [List.length_cons]; omega
        rw [if_neg h1, if_neg h2, if_neg hx]

/-- Canonical memories that read the same are equal. -/
theorem canonicalFrom_ext {lo : Nat} {m n : Memory} (hm : Memory.canonicalFrom lo m = true)
    (hn : Memory.canonicalFrom lo n = true) (h : ∀ a, Memory.read m a = Memory.read n a) : m = n := by
  induction m generalizing lo n with
  | nil =>
    cases n with
    | nil => rfl
    | cons d n =>
      obtain ⟨k, v⟩ := d
      have := h k
      simp only [Memory.read, if_true] at this
      exact absurd this.symm (canonicalFrom_cons.mp hn).2.1
  | cons c m ih =>
    obtain ⟨k, v⟩ := c
    have hm' := canonicalFrom_cons.mp hm
    cases n with
    | nil =>
      have := h k
      simp only [Memory.read, if_true] at this
      exact absurd this hm'.2.1
    | cons d n =>
      obtain ⟨l, w⟩ := d
      have hn' := canonicalFrom_cons.mp hn
      have hkl : k = l := by
        rcases lt_trichotomy k l with hlt | heq | hlt
        · have := h k
          rw [read_below (canonicalFrom_cons.mpr ⟨le_refl l, hn'.2⟩) hlt] at this
          simp only [Memory.read, if_true] at this
          exact absurd this hm'.2.1
        · exact heq
        · have := h l
          rw [read_below (canonicalFrom_cons.mpr ⟨le_refl k, hm'.2⟩) hlt] at this
          simp only [Memory.read, if_true] at this
          exact absurd this.symm hn'.2.1
      subst hkl
      have hv : v = w := by simpa [Memory.read] using h k
      subst hv
      congr 1
      refine ih hm'.2.2 hn'.2.2 (fun a => ?_)
      by_cases ha : a = k
      · subst ha
        rw [read_below hm'.2.2 (Nat.lt_succ_self a), read_below hn'.2.2 (Nat.lt_succ_self a)]
      · simpa [Memory.read, ha] using h a

theorem memory_ext {m n : Memory} (hm : Memory.canonical m = true) (hn : Memory.canonical n = true)
    (h : ∀ a, Memory.read m a = Memory.read n a) : m = n :=
  canonicalFrom_ext hm hn h

end Sys2Proof.Machine
end

