-- ==== Sys2Proof/Laws/Ops.lean ====
section
/-! SUPPORT. What the shared operations can do: the phase, the checks, the issue of a command, its completion,
the chain's loop, and the writes of the Word Encoder. -/

namespace Sys2Proof.Machine

/-! ### The phase -/

theorem phase_idle_iff {s : State} : s.phase = .idle ↔ s.status.err = 0#4 ∧ s.status.busy = false := by
  simp only [State.phase, Status.phase]
  split_ifs <;> simp_all

theorem phase_run_iff {s : State} : s.phase = .run ↔ s.status.err = 0#4 ∧ s.status.busy = true := by
  simp only [State.phase, Status.phase]
  split_ifs <;> simp_all

theorem phase_error_iff {s : State} : s.phase = .error ↔ s.status.err ≠ 0#4 := by
  simp only [State.phase, Status.phase]
  split_ifs <;> simp_all

theorem errorCode_ne_zero (e : ErrorCode) : errorCode e ≠ 0#4 := by cases e <;> decide

/-! ### The checks -/

/-- A check depends on the request registers and the configuration alone (rule R94 step 5). -/
theorem firstError_congr {c : Checks} {s t : State} (hr : s.req = t.req) (hc : s.cfg = t.cfg) :
    firstError c s = firstError c t := by
  cases s
  cases t
  cases hr
  cases hc
  rfl

theorem firstError_eq_none {c : Checks} {s : State} :
    firstError c s = none ↔
      (c.seq = true → s.seqOk = true) ∧ (c.len = true → s.lenOk = true) ∧ (c.alg = true → s.algOk = true) ∧
        (c.dict = true → s.dictCountOk = true) := by
  simp only [firstError]
  cases c.seq <;> cases c.len <;> cases c.alg <;> cases c.dict <;>
    cases s.seqOk <;> cases s.lenOk <;> cases s.algOk <;> cases s.dictCountOk <;> simp

theorem seqOk_iff {s : State} : s.seqOk = true ↔ 0 ≤ s.req.seq.toInt := by
  rw [State.seqOk, decide_eq_true_iff]; rfl

theorem lenOk_iff {s : State} : s.lenOk = true ↔
    s.req.seedLen.toNat ≤ 256 ∧ s.req.passLen.toNat ≤ 256 ∧
      (s.cfg.reqNonempty = true → 1 ≤ s.req.seedLen.toNat ∧ 1 ≤ s.req.passLen.toNat) := by
  simp only [State.lenOk, Bool.and_eq_true, decide_eq_true_eq, Bool.or_eq_true, Bool.not_eq_true']
  cases s.cfg.reqNonempty <;> simp [and_assoc]

theorem algOk_iff {s : State} : s.algOk = true ↔ s.req.alg = 1#32 ∨ s.req.alg = 2#32 := by
  simp [State.algOk, supported]

theorem dictCountOk_iff {s : State} : s.dictCountOk = true ↔ s.cfg.dict.entries.length = 2048 := by
  simp [State.dictCountOk]

/-- When a command's check answers `InvalidArgument` (rules R171, R175). -/
theorem firstError_invalid {c : Checks} {s : State} :
    firstError c s = some .invalidArgument ↔
      (c.seq = true ∧ s.seqOk = false) ∨ (c.len = true ∧ s.lenOk = false) := by
  simp only [firstError]
  cases c.seq <;> cases c.len <;> cases c.alg <;> cases c.dict <;>
    cases s.seqOk <;> cases s.lenOk <;> cases s.algOk <;> cases s.dictCountOk <;> simp

/-- When a command's check answers `UnsupportedAlgorithm` (rules R172, R175). -/
theorem firstError_unsupported {c : Checks} {s : State} :
    firstError c s = some .unsupportedAlgorithm ↔
      (c.seq = true → s.seqOk = true) ∧ (c.len = true → s.lenOk = true) ∧ c.alg = true ∧ s.algOk = false := by
  simp only [firstError]
  cases c.seq <;> cases c.len <;> cases c.alg <;> cases c.dict <;>
    cases s.seqOk <;> cases s.lenOk <;> cases s.algOk <;> cases s.dictCountOk <;> simp

/-- When a command's check answers `DictionaryConfigurationError` (rules R173, R175). -/
theorem firstError_dictionary {c : Checks} {s : State} :
    firstError c s = some .dictionaryConfiguration ↔
      (c.seq = true → s.seqOk = true) ∧ (c.len = true → s.lenOk = true) ∧ (c.alg = true → s.algOk = true) ∧
        c.dict = true ∧ s.dictCountOk = false := by
  simp only [firstError]
  cases c.seq <;> cases c.len <;> cases c.alg <;> cases c.dict <;>
    cases s.seqOk <;> cases s.lenOk <;> cases s.algOk <;> cases s.dictCountOk <;> simp

/-- `IllegalCommand` is no check of a command (rules R101, R174). -/
theorem firstError_ne_illegal {c : Checks} {s : State} : firstError c s ≠ some .illegalCommand := by
  simp only [firstError]
  split_ifs <;> simp

/-! ### Issue and completion -/

theorem issue_not_idle {i : Instr} {body : Body} {s : State} (h : s.phase ≠ .idle) : issue i body s = s :=
  if_neg h

theorem issue_error {i : Instr} {body : Body} {s : State} {e : ErrorCode} (h : s.phase = .idle)
    (he : firstError (checksOf i) s = some e) : issue i body s = s.erred i e := by
  rw [issue, if_pos h, he]
  obtain ⟨h1, h2⟩ := phase_idle_iff.mp h
  simp [State.raise, State.examine, State.erred, Status.raised, Status.examined]

theorem issue_ok {i : Instr} {body : Body} {s : State} (h : s.phase = .idle)
    (he : firstError (checksOf i) s = none) : issue i body s = launch body (s.examine (opcode i)) := by
  rw [issue, if_pos h, he]

/-- Acceptance from `IDLE` leaves the running state (rule R94). -/
theorem accept_eq_running {i : Instr} {s : State} (h : s.phase = .idle) (n : Nat) :
    (s.examine (opcode i)).accept.redraw.setWait n = (s.running i).setWait n := by
  obtain ⟨h1, h2⟩ := phase_idle_iff.mp h
  simp [State.accept, State.examine, State.redraw, State.setWait, State.running, Status.accepted,
    Status.examined, h1]

/-- Everything the issue of a command can do (rule R94). -/
theorem issue_cases (i : Instr) (body : Body) (s : State) :
    (s.phase ≠ .idle ∧ issue i body s = s) ∨
    (∃ e, s.phase = .idle ∧ firstError (checksOf i) s = some e ∧ issue i body s = s.erred i e) ∨
    (s.phase = .idle ∧ firstError (checksOf i) s = none ∧ s.port.latency = 0 ∧
      issue i body s = complete body ((s.running i).setWait s.port.wait)) ∨
    (s.phase = .idle ∧ firstError (checksOf i) s = none ∧ s.port.latency ≠ 0 ∧
      issue i body s = s.running i) := by
  by_cases h : s.phase = .idle
  · cases he : firstError (checksOf i) s with
    | some e => exact .inr (.inl ⟨e, h, rfl, issue_error h he⟩)
    | none =>
      by_cases hl : s.port.latency = 0
      · refine .inr (.inr (.inl ⟨h, rfl, hl, ?_⟩))
        rw [issue_ok h he, launch, if_pos (by simpa using hl)]
        have := accept_eq_running (i := i) h s.port.wait
        rw [← this]; rfl
      · refine .inr (.inr (.inr ⟨h, rfl, hl, ?_⟩))
        rw [issue_ok h he, launch, if_neg (by simpa using hl)]
        exact accept_eq_running h _
  · exact .inl ⟨h, issue_not_idle h⟩

/-- Everything a completion can do (rule R95). -/
theorem complete_cases (body : Body) (s : State) :
    (∃ t, body s = .ok t ∧ complete body s = t.finish) ∨
    (∃ e, body s = .error e ∧ complete body s = s.raise e) := by
  cases h : body s with
  | ok t => exact .inl ⟨t, rfl, by rw [complete, h]⟩
  | error e => exact .inr ⟨e, rfl, by rw [complete, h]⟩

/-- The chain's loop does not look at the port. -/
theorem chainRounds_port (n : Nat) (s : State) (p : Port) :
    chainRounds n { s with port := p } = { chainRounds n s with port := p } := by
  induction n generalizing s with
  | zero => rfl
  | succ n ih => exact ih s.foldRegs.rehashFold.extractRegs

/-- The Word Encoder does not look at the port. -/
theorem encodeWords_port (s : State) (p : Port) :
    encodeWords { s with port := p } = (encodeWords s).map (fun t => { t with port := p }) := by
  simp only [encodeWords]
  cases otpString s.cfg.dict.entries s.work.value <;> rfl

/-- No command's pseudocode looks at the port (rule R13: it is a function of the core's registers). -/
theorem runningBody_port {o : BitVec 8} {body : Body} (hb : runningBody o = some body) (s : State) (p : Port) :
    body { s with port := p } = (body s).map (fun t => { t with port := p }) := by
  have hc : chainEngine { s with port := p } = { chainEngine s with port := p } :=
    chainRounds_port s.rounds (s.hash s.message0).extractRegs p
  unfold runningBody at hb
  split at hb <;> cases hb
  · rfl
  · rfl
  · rfl
  · rfl
  · rfl
  · exact encodeWords_port s p
  · exact congrArg Except.ok hc
  · rw [deriveBody, hc]
    exact encodeWords_port (chainEngine s).encodeFold p
  · rfl

/-- A completion keeps the port but for the waiting count, whatever the port is (rule R95). -/
theorem complete_port {o : BitVec 8} {body : Body} {s t : State} (hb : runningBody o = some body)
    (h : body s = .ok t) (p : Port) :
    complete body { s with port := p } = { t.finish with port := { p with wait := 0 } } := by
  rw [complete, runningBody_port hb, h]
  rfl

/-- How a command is shown to complete: its pseudocode, run on the running state with any waiting count, gives
the state it should. -/
theorem completesAs_of_body {i : Instr} {body : Body} {s t : State} (hx : exec i s = .next (issue i body s))
    (hb : runningBody (opcode i) = some body) (h : s.phase = .idle)
    (he : firstError (checksOf i) s = none)
    (ht : ∀ n, complete body ((s.running i).setWait n) = t) : CompletesAs i s t := by
  have hrun : (s.running i).setWait s.port.latency = s.running i := rfl
  have hseq (r : State) (hr : r.status.opc = opcode i) : sequencer r = .next (complete body r) := by
    rw [sequencer, hr, hb]
  refine ⟨fun hl => ?_, fun hl => ⟨?_, ?_, fun p hp => ?_⟩⟩
  · rcases issue_cases i body s with ⟨h', _⟩ | ⟨e, _, h', _⟩ | ⟨_, _, _, h'⟩ | ⟨_, _, h', _⟩
    · exact absurd h h'
    · rw [he] at h'; cases h'
    · rw [hx, h', ht]
    · exact absurd hl h'
  · rcases issue_cases i body s with ⟨h', _⟩ | ⟨e, _, h', _⟩ | ⟨_, _, h', _⟩ | ⟨_, _, _, h'⟩
    · exact absurd h h'
    · rw [he] at h'; cases h'
    · exact absurd h' hl
    · rw [hx, h']
  · rw [hseq _ rfl, ← hrun]
    exact congrArg Host.Outcome.next (ht _)
  · have hdue : State.due { s.running i with port := p } = true := by
      rcases hp with hp | hp <;> simp [State.due, State.phase, Status.phase, State.running, hp]
    rw [step, if_pos hdue, hseq _ rfl]
    refine congrArg Host.Outcome.next ?_
    cases hbody : body (s.running i) with
    | ok u =>
      have h0 : t = { u.finish with port := { (s.running i).port with wait := 0 } } :=
        (ht s.port.latency).symm.trans (complete_port hb hbody _)
      rw [complete_port hb hbody, h0]
    | error e =>
      have herr (n : Nat) : t = ((s.running i).setWait n).raise e := by
        have hn : body ((s.running i).setWait n) = .error e :=
          (runningBody_port hb (s.running i) _).trans (by rw [hbody]; rfl)
        rw [← ht n, complete, hn]
      have hw := congrArg (fun u : State => u.port.wait) ((herr 0).symm.trans (herr 1))
      exact absurd hw (by simp)

/-- What the issue of a command with a given body answers, as an outcome of `exec`. -/
theorem exec_next (i : Instr) (s : State) : ∃ t, exec i s = .next t := by
  cases i <;> exact ⟨_, rfl⟩

/-- A command written outside `IDLE` is dropped, unless it is `SRST` (rule R94 step 2). -/
theorem exec_not_idle {i : Instr} {s : State} (hi : i ≠ .srst) (h : s.phase ≠ .idle) :
    exec i s = .next s := by
  cases i with
  | srst => exact absurd rfl hi
  | _ => exact congrArg Host.Outcome.next (issue_not_idle h)

/-- A command whose check fails (rule R176). -/
theorem exec_error {i : Instr} {s : State} {e : ErrorCode} (hi : i ≠ .srst) (h : s.phase = .idle)
    (he : firstError (checksOf i) s = some e) : exec i s = .next (s.erred i e) := by
  cases i with
  | srst => exact absurd rfl hi
  | _ => exact congrArg Host.Outcome.next (issue_error h he)

/-- `exec` of a command other than `SRST` is its issue, with the body the sequencer completes. -/
theorem exec_issue {i : Instr} (hi : i ≠ .srst) :
    ∃ body, runningBody (opcode i) = some body ∧ ∀ s, exec i s = .next (issue i body s) := by
  cases i with
  | srst => exact absurd rfl hi
  | hash0 => exact ⟨hash0Body, rfl, fun _ => rfl⟩
  | xtr => exact ⟨xtrBody, rfl, fun _ => rfl⟩
  | fold => exact ⟨foldBody, rfl, fun _ => rfl⟩
  | rehash => exact ⟨rehashBody, rfl, fun _ => rfl⟩
  | enc64 => exact ⟨enc64Body, rfl, fun _ => rfl⟩
  | wenc => exact ⟨wencBody, rfl, fun _ => rfl⟩
  | chain => exact ⟨chainBody, rfl, fun _ => rfl⟩
  | derive => exact ⟨deriveBody, rfl, fun _ => rfl⟩
  | step => exact ⟨stepBody, rfl, fun _ => rfl⟩

/-! ### The chain's loop -/

/-- What the chain's loop leaves in the fields it does not write. -/
theorem chainRounds_frame (n : Nat) (s : State) :
    (chainRounds n s).status = s.status ∧ (chainRounds n s).req = s.req ∧ (chainRounds n s).enc = s.enc ∧
      (chainRounds n s).mem = s.mem ∧ (chainRounds n s).cfg = s.cfg ∧ (chainRounds n s).port = s.port ∧
      (chainRounds n s).work.value = s.work.value := by
  induction n generalizing s with
  | zero => exact ⟨rfl, rfl, rfl, rfl, rfl, rfl, rfl⟩
  | succ n ih => simpa [chainRounds] using ih s.foldRegs.rehashFold.extractRegs

/-- What the Hash-Chain Engine leaves in the fields it does not write. -/
theorem chainEngine_frame (s : State) :
    (chainEngine s).status = s.status ∧ (chainEngine s).req = s.req ∧ (chainEngine s).enc = s.enc ∧
      (chainEngine s).mem = s.mem ∧ (chainEngine s).cfg = s.cfg ∧ (chainEngine s).port = s.port ∧
      (chainEngine s).work.value = s.work.value :=
  chainRounds_frame s.rounds (s.hash s.message0).extractRegs

/-! ### The Word Encoder -/

/-- With 2048 entries the pseudocode of the Word Encoder takes no error (rule R153 (b)). -/
theorem encodeWords_ok {s : State} (h : s.cfg.dict.entries.length = 2048) :
    ∃ str, otpString s.cfg.dict.entries s.work.value = some str ∧ encodeWords s = .ok (s.putOtp str) := by
  obtain ⟨str, hs⟩ := otpString_isSome h s.work.value
  exact ⟨str, hs, by rw [encodeWords, hs]⟩

theorem otpBytes_length (str : List Byte) : (otpBytes str).length = Config.strMax := by
  simp [otpBytes]

/-- Byte `k` of what the Word Encoder writes into `OTPSTR` (rule R152). -/
theorem otpBytes_getD (str : List Byte) {k : Nat} (h : k < Config.strMax) :
    (otpBytes str).getD k 0#8 = str.getD k 0#8 := by
  rw [otpBytes, List.getD_eq_getElem?_getD, List.getElem?_take_of_lt h, List.getD_eq_getElem?_getD,
    List.getElem?_append]
  split
  · rfl
  · next hk =>
    rw [List.getElem?_replicate, List.getElem?_eq_none (by omega)]
    split <;> rfl

theorem implemented_otp {k : Nat} (h : k < Config.strMax) : implemented (otpBase + k) = true := by
  rw [implemented_iff]
  simp only [otpBase, Config.strMax] at h ⊢
  omega

/-- The Word Encoder keeps memory well formed. -/
theorem wf_putOtp {s : State} {str : List Byte} (h : Memory.wf s.mem = true) :
    Memory.wf (s.putOtp str).mem = true :=
  wf_writeBytes h (fun k hk => implemented_otp (by rwa [otpBytes_length] at hk))

/-- Everything the pseudocode of the Word Encoder can do. -/
theorem encodeWords_cases (s : State) :
    (∃ str, otpString s.cfg.dict.entries s.work.value = some str ∧ encodeWords s = .ok (s.putOtp str)) ∨
    (otpString s.cfg.dict.entries s.work.value = none ∧ encodeWords s = .error .dictionaryConfiguration) := by
  unfold encodeWords
  split
  · next str h => exact .inl ⟨str, h, rfl⟩
  · next h => exact .inr ⟨h, rfl⟩

end Sys2Proof.Machine
end

