-- ==== Sys2Proof/Laws/HostPort.lean ====
section
/-! SUPPORT. What a read, a write and an event from outside can do. -/

namespace Sys2Proof.Machine

/-- Everything a read can do (rules R64, R70, R71). -/
theorem readSlot_cases (r : Slot) (s : State) :
    (s.phase = .run ∧ stagedBits r ≠ 0#32 ∧
      readSlot r s = (s.giveRead (Config.freeRead s.port.draws &&& stagedBits r)).drawn) ∨
    ((s.phase ≠ .run ∨ stagedBits r = 0#32) ∧ readSlot r s = s.giveRead (slotWord s r)) := by
  unfold readSlot
  split
  · next h => exact .inl ⟨h.1, h.2, rfl⟩
  · next h => exact .inr ⟨by tauto, rfl⟩

/-- A read changes no register (rule R64). -/
theorem readSlot_frame (r : Slot) (s : State) :
    (readSlot r s).status = s.status ∧ (readSlot r s).req = s.req ∧ (readSlot r s).work = s.work ∧
      (readSlot r s).enc = s.enc ∧ (readSlot r s).count = s.count ∧ (readSlot r s).mem = s.mem ∧
      (readSlot r s).cfg = s.cfg := by
  rcases readSlot_cases r s with ⟨_, _, h⟩ | ⟨_, h⟩ <;> rw [h] <;> exact ⟨rfl, rfl, rfl, rfl, rfl, rfl, rfl⟩

/-- A `STATUS` poll changes no register (rules R64, R99). -/
theorem pollStatus_frame (s : State) :
    (pollStatus s).status = s.status ∧ (pollStatus s).req = s.req ∧ (pollStatus s).work = s.work ∧
      (pollStatus s).enc = s.enc ∧ (pollStatus s).count = s.count ∧ (pollStatus s).mem = s.mem ∧
      (pollStatus s).cfg = s.cfg := by
  have h := readSlot_frame .status s
  unfold pollStatus
  dsimp only
  split
  · exact h
  · exact h

/-- What a host write may change (rule R65): request, working and buffer registers, nothing else. -/
theorem storeSlot_frame (r : Slot) (v : Word) (s : State) :
    (storeSlot r v s).status = s.status ∧ (storeSlot r v s).enc = s.enc ∧
      (storeSlot r v s).count = s.count ∧ (storeSlot r v s).cfg = s.cfg ∧
      (storeSlot r v s).port = s.port := by
  cases r <;> simp [storeSlot]

theorem lebytes4_length (v : Word) : (lebytes4 v).length = 4 := rfl

/-- A host write keeps memory well formed. -/
theorem wf_storeSlot {r : Slot} {v : Word} {s : State} (h : Memory.wf s.mem = true) :
    Memory.wf (storeSlot r v s).mem = true := by
  cases r with
  | seedBuf j =>
    refine wf_writeBytes h (fun k hk => ?_)
    rw [lebytes4_length] at hk
    have := j.isLt
    rw [implemented_iff]
    simp only [seedBase]
    omega
  | passBuf j =>
    refine wf_writeBytes h (fun k hk => ?_)
    rw [lebytes4_length] at hk
    have := j.isLt
    rw [implemented_iff]
    simp only [passBase]
    omega
  | _ => exact h

/-- Everything a write of a command word can do (rule R94). -/
theorem cmdWrite_cases (w : Word) (s : State) :
    (∃ i, decode w = .ok i ∧ cmdWrite w s = exec i s) ∨
    (∃ e, decode w = .error e ∧ cmdWrite w s = .next (illegalCommand w s)) := by
  unfold cmdWrite
  split
  · next i h => exact .inl ⟨i, h, rfl⟩
  · next e h => exact .inr ⟨e, h, rfl⟩

/-- Everything a host write can do (rules R65, R69, R94). -/
theorem writeSlot_cases (r : Slot) (v : Word) (s : State) :
    (r = .cmd ∧ writeSlot r v s = cmdWrite v s) ∨
    (r ≠ .cmd ∧ s.phase = .idle ∧ writeSlot r v s = .next (storeSlot r v s)) ∨
    (r ≠ .cmd ∧ s.phase ≠ .idle ∧ writeSlot r v s = .next s) := by
  unfold writeSlot
  split
  · next h => exact .inl ⟨h, rfl⟩
  · next h =>
    split
    · next h' => exact .inr (.inl ⟨h, h', rfl⟩)
    · next h' => exact .inr (.inr ⟨h, h', rfl⟩)

/-- Everything an event from outside that is answered with a next state can do. -/
theorem perform_next_cases {e : HostEvent} {s t : State} (h : perform e s = .next t) :
    (∃ off, e = .read 4 off ∧ transactionOk 4 off = true ∧ t = readSlot (slotAt off) s) ∨
    (∃ off v, e = .write 4 off v ∧ transactionOk 4 off = true ∧ writeSlot (slotAt off) v s = .next t) ∨
    (e = .poll ∧ t = pollStatus s) ∨
    (e = .reset ∧ t = s.resetCore) := by
  have four : ∀ bytes off, transactionOk bytes off = true → bytes = 4 := by
    intro bytes off hk
    simp only [transactionOk, Bool.and_eq_true, beq_iff_eq] at hk
    exact hk.1.1
  cases e with
  | read bytes off =>
    simp only [perform] at h
    split at h
    · next hk =>
      obtain rfl := four _ _ hk
      exact .inl ⟨off, rfl, hk, (Host.Outcome.next.inj h).symm⟩
    · cases h
  | write bytes off v =>
    simp only [perform] at h
    split at h
    · next hk =>
      obtain rfl := four _ _ hk
      exact .inr (.inl ⟨off, v, rfl, hk, h⟩)
    · cases h
  | poll => exact .inr (.inr (.inl ⟨rfl, (Host.Outcome.next.inj h).symm⟩))
  | reset => exact .inr (.inr (.inr ⟨rfl, (Host.Outcome.next.inj h).symm⟩))

/-- The offset of `CMD` is the only one whose register is `CMD` (rule R61). -/
theorem slotAt_cmd : slotAt 0x004 = .cmd := rfl

/-! ### The window -/

/-- Each byte of an array after a host write to one of its words (rule R65). -/
theorem setLanes_getElem {n : Nat} (d : Vector Byte n) (k : Nat) (v : Word) (i : Nat) (h : i < n) :
    (setLanes d k v)[i] = if k ≤ i ∧ i < k + 4 then lane v (i - k) else d[i] := by
  simp only [setLanes, Vector.getElem_setIfInBounds]
  by_cases h0 : k = i
  · subst h0; simp
  by_cases h1 : k + 1 = i
  · subst h1; simp
  by_cases h2 : k + 2 = i
  · subst h2; simp
  by_cases h3 : k + 3 = i
  · subst h3; simp
  rw [if_neg h3, if_neg h2, if_neg h1, if_neg h0, if_neg (by omega)]

/-- The register that stands at a register's offset is that register (rule R61). -/
theorem slotAt_slotOffset (r : Slot) : slotAt (slotOffset r) = r := by
  cases r <;> first | rfl | (rename_i j; revert j; decide +kernel)

theorem transactionOk_slotOffset (r : Slot) : transactionOk 4 (slotOffset r) = true := by
  cases r <;> first | rfl | (rename_i j; revert j; decide +kernel)

/-- `CMD` stands at no other offset (rule R61). -/
theorem slotAt_eq_cmd {off : Nat} (hr : slotAt off = .cmd) : off = 0x004 := by
  unfold slotAt at hr
  split at hr
  · next r hl =>
    obtain ⟨l₁, l₂, hm, _⟩ := List.lookup_eq_some_iff.mp hl
    have : (off, r) ∈ registerMap := by rw [hm]; simp
    rw [hr] at this
    simpa [registerMap] using this
  · split_ifs at hr

/-- The word written by a host write reads back (rules R65, R68). -/
theorem readWord_writeBytes {m : Memory} (hm : Memory.canonical m = true) (a : Nat) (v : Word) :
    Memory.readWord (Memory.writeBytes m a (lebytes4 v)) a = v := by
  have h (k : Nat) (hk : k < 4) :
      Memory.read (Memory.writeBytes m a (lebytes4 v)) (a + k) = (lebytes4 v).getD k 0#8 := by
    rw [read_writeBytes hm, if_pos ⟨by omega, by rw [lebytes4_length]; omega⟩, Nat.add_sub_cancel_left]
  have h0 := h 0 (by omega)
  rw [Nat.add_zero] at h0
  rw [Memory.readWord, h0, h 1 (by omega), h 2 (by omega), h 3 (by omega)]
  exact le32_lanes v

/-- A word none of whose bytes has changed reads as before. -/
theorem readWord_congr {m n : Memory} {a : Nat} (h : ∀ k < 4, Memory.read m (a + k) = Memory.read n (a + k)) :
    Memory.readWord m a = Memory.readWord n a := by
  have h0 := h 0 (by omega)
  rw [Nat.add_zero] at h0
  rw [Memory.readWord, Memory.readWord, h0, h 1 (by omega), h 2 (by omega), h 3 (by omega)]

end Sys2Proof.Machine
end

