-- ==== Sys2Proof/Laws/PerInstr.lean ====
section
/-! SUPPORT. Statements made per instruction, one lemma per constructor. -/

namespace Sys2Proof.Laws

/-- The command word of an instruction decodes to it (rule R92). -/
def RoundTrip.Statement (i : Instr) : Prop := i.wf = true → decode (encode i) = .ok i

theorem RoundTrip.hash0 : RoundTrip.Statement .hash0 := fun _ => by decide
theorem RoundTrip.xtr : RoundTrip.Statement .xtr := fun _ => by decide
theorem RoundTrip.fold : RoundTrip.Statement .fold := fun _ => by decide
theorem RoundTrip.rehash : RoundTrip.Statement .rehash := fun _ => by decide
theorem RoundTrip.enc64 : RoundTrip.Statement .enc64 := fun _ => by decide
theorem RoundTrip.wenc : RoundTrip.Statement .wenc := fun _ => by decide
theorem RoundTrip.chain : RoundTrip.Statement .chain := fun _ => by decide
theorem RoundTrip.derive : RoundTrip.Statement .derive := fun _ => by decide
theorem RoundTrip.step : RoundTrip.Statement .step := fun _ => by decide
theorem RoundTrip.srst : RoundTrip.Statement .srst := fun _ => by decide

end Sys2Proof.Laws
end

