-- ==== Sys2Proof/Laws/Step.lean ====
section
/-! SUPPORT. What a step can do. -/

namespace Sys2Proof.Machine

theorem due_iff {s : State} :
    s.due = true ↔ s.phase = .run ∧ (s.port.wait = 0 ∨ s.port.inbox = []) := by
  simp [State.due, List.isEmpty_iff]

theorem step_due {s : State} (h : s.due = true) : step s = sequencer s := if_pos h

theorem step_host {s : State} {e : HostEvent} {rest : List HostEvent} (h : s.due = false)
    (hi : s.port.inbox = e :: rest) : step s = perform e (s.tick rest) := by
  rw [step, if_neg (by simp [h]), hostTurn, hi]

theorem step_quiet {s : State} (h : s.due = false) (hi : s.port.inbox = []) : step s = .next s := by
  rw [step, if_neg (by simp [h]), hostTurn, hi]

/-- Everything a step can do (rule R6): complete the running command, let the core be, or take the next event
from outside. -/
theorem step_cases (s : State) :
    (s.due = true ∧ step s = sequencer s) ∨
    (s.due = false ∧ s.port.inbox = [] ∧ step s = .next s) ∨
    (∃ e rest, s.due = false ∧ s.port.inbox = e :: rest ∧ step s = perform e (s.tick rest)) := by
  cases h : s.due with
  | true => exact .inl ⟨rfl, step_due h⟩
  | false =>
    cases hi : s.port.inbox with
    | nil => exact .inr (.inl ⟨rfl, rfl, step_quiet h hi⟩)
    | cons e rest => exact .inr (.inr ⟨e, rest, rfl, rfl, step_host h hi⟩)

/-- Everything a completion step can do (rule R95). -/
theorem sequencer_cases (s : State) :
    (∃ body, runningBody s.status.opc = some body ∧ sequencer s = .next (complete body s)) ∨
    (runningBody s.status.opc = none ∧ sequencer s = .fault .noCommandRunning) := by
  unfold sequencer
  split
  · next body h => exact .inl ⟨body, h, rfl⟩
  · next h => exact .inr ⟨h, rfl⟩

@[simp] theorem tick_phase (s : State) (r : List HostEvent) : (s.tick r).phase = s.phase := rfl

/-- The command word that `withFetchWord` places is what the very next step examines. -/
theorem step_withFetchWord (s : State) (nbits w : Nat) :
    step (s.withFetchWord nbits w) =
      cmdWrite (BitVec.ofNat 32 (w % 2 ^ nbits)) ((s.withFetchWord nbits w).tick s.port.inbox) := by
  have hd : (s.withFetchWord nbits w).due = false := by
    cases h : (s.withFetchWord nbits w).due with
    | false => rfl
    | true =>
      obtain ⟨hp, hw | hw⟩ := due_iff.mp h
      · have hp' : s.phase = .run := hp
        simp [State.withFetchWord, hp'] at hw
      · simp [State.withFetchWord] at hw
  exact step_host (rest := s.port.inbox) hd rfl

end Sys2Proof.Machine
end

