-- ==== Sys2Proof/Tests/Slice0.lean ====
section
/-! SUPPORT. Tests: expected values come from the spec's encodings (rule R92) and vectors (section 3 of the test
vectors, named V-…), never from the model; and one witness for each statement that has hypotheses. -/

namespace Sys2Proof.Tests

open Sys2Proof Sys2Proof.Machine

/-! ### Small states -/

/-- The next state, if there is one. -/
def after : Host.Outcome State Fault Refusal → Option State
  | .next s => some s
  | .fault _ => none
  | .refused _ => none

/-- Why a step was refused, if it was. -/
def refusalOf : Host.Outcome State Fault Refusal → Option Refusal
  | .next _ => none
  | .fault _ => none
  | .refused r => some r

/-- `STATUS` of the next state as the host reads it. -/
def statusAfter (o : Host.Outcome State Fault Refusal) : Option Word := (after o).map (fun s => s.status.word)

/-- A core after reset with this dictionary and this `REQ_NONEMPTY`, whose next command completes at once. -/
def coreWith (dict : Dictionary) (nonempty : Bool) : State :=
  { State.reset with
    cfg := { dict := dict, reqNonempty := nonempty }
    port := { inbox := [], reads := [], latency := 0, wait := 0, draws := 0 } }

/-- No dictionary. -/
def noDict : Dictionary := { entries := [], inside := by rfl }

/-- A dictionary of ten entries. -/
def stub : Dictionary := { entries := List.replicate 10 [0x41#8], inside := by rfl }

/-- A dictionary of two entries, one empty and one longer than `WORD_MAX`: inside the model (U6). -/
def oddStub : Dictionary := { entries := [[], [0x41#8, 0x41#8, 0x41#8, 0x41#8, 0x41#8]], inside := by rfl }

/-- A core after reset without a dictionary, `REQ_NONEMPTY` false. -/
def fresh : State := coreWith noDict false

/-- A state with this request; the buffers hold what they held. -/
def withReq (s : State) (alg seq seedLen passLen : Word) : State :=
  { s with req := { alg := alg, seq := seq, seedLen := seedLen, passLen := passLen } }

/-- A state with this `STATUS`. -/
def withStatus (s : State) (busy done : Bool) (err : BitVec 4) (opc : BitVec 8) : State :=
  { s with status := { busy := busy, done := done, err := err, opc := opc } }

/-- A state whose next command lets so many host transactions pass. -/
def withLatency (s : State) (n : Nat) : State := { s with port := { s.port with latency := n } }

/-- A state whose running command lets so many host transactions pass. -/
def withWait (s : State) (n : Nat) : State := { s with port := { s.port with wait := n } }

/-- A state with these events next on the host interface. -/
def asked (s : State) (es : List HostEvent) : State := { s with port := { s.port with inbox := es } }

/-- A state with these working registers. -/
def withWork (s : State) (w : Working) : State := { s with work := w }

/-- A core whose command `opc` is running and lets so many host transactions pass. -/
def busyWith (opc : BitVec 8) (n : Nat) : State := withWait (withStatus fresh true false 0#4 opc) n

/-- A core that has recorded the error of vector V-E1. -/
def failed : State := withStatus (withReq fresh 1#32 0xFFFFFFFF#32 4#32 4#32) false false 1#4 0x10#8

/-- The entries of a dictionary as rule R150 asks it to be: the word of `n` is two ASCII characters and a tail. -/
def sampleEntries (tail : List Byte) : List (List Byte) :=
  (List.range 2048).map (fun n => BitVec.ofNat 8 (0x30 + n / 64) :: BitVec.ofNat 8 (0x30 + n % 64) :: tail)

theorem sampleEntries_length (tail : List Byte) : (sampleEntries tail).length = 2048 := by simp [sampleEntries]

theorem sampleEntries_ok {tail : List Byte} (hl : tail.length ≤ 2) (ha : ∀ b ∈ tail, b.toNat < 128) :
    dictOk (sampleEntries tail) = true := by
  have hlen : ((sampleEntries tail).length == Config.dictSize) = true := by rw [sampleEntries_length]; rfl
  have hall : (sampleEntries tail).all wordOk = true := by
    simp only [sampleEntries, List.all_eq_true, List.mem_map, List.mem_range]
    rintro w ⟨n, hn, rfl⟩
    have h1 : (0x30 + n / 64) % 256 < 128 := by omega
    have h2 : (0x30 + n % 64) % 256 < 128 := by omega
    rw [wordOk_iff]
    refine ⟨by simp, by simp; omega, fun b hb => ?_⟩
    simp only [List.mem_cons] at hb
    rcases hb with rfl | rfl | hb
    · simpa using h1
    · simpa using h2
    · exact ha b hb
  have hnodup : (sampleEntries tail).Nodup := by
    refine List.Nodup.map_on ?_ List.nodup_range
    intro a ha b hb h
    rw [List.mem_range] at ha hb
    simp only [List.cons.injEq] at h
    have h1 := congrArg BitVec.toNat h.1
    have h2 := congrArg BitVec.toNat h.2.1
    simp only [BitVec.toNat_ofNat] at h1 h2
    omega
  simp [dictOk, hlen, hall, hnodup]

theorem inside_of_ok {d : List (List Byte)} (h : dictOk d = true) : dictInside d = true := by
  simp [dictInside, h]

/-- A dictionary of 2048 words of two letters. -/
def sampleDict : Dictionary :=
  { entries := sampleEntries [], inside := inside_of_ok (sampleEntries_ok (by decide) (by simp)) }

/-- A dictionary of 2048 words of four letters. -/
def longDict : Dictionary :=
  { entries := sampleEntries [0x41#8, 0x42#8], inside := inside_of_ok (sampleEntries_ok (by decide) (by decide)) }

/-- A dictionary of 2049 entries. -/
def bigDict : Dictionary :=
  { entries := [0x41#8] :: sampleEntries [], inside := by simp [dictInside, sampleEntries_length] }

theorem sampleDict_length : sampleDict.entries.length = 2048 := by
  simp only [sampleDict, sampleEntries_length]

/-! ### Well-formedness refuses what is ill formed -/

theorem test_wf_width : HostEvent.wf (.read 2 0x000) = false := by decide
theorem test_wf_alignment : HostEvent.wf (.write 4 0x00E 0#32) = false := by decide
theorem test_wf_range : HostEvent.wf (.read 4 0x1000) = false := by decide
theorem test_wf_last_offset : HostEvent.wf (.read 4 0xFFC) = true := by decide
theorem test_wf_word_ascii : wordOk [0x41#8, 0x42#8, 0x43#8, 0x7F#8] = true := by decide
theorem test_wf_word_not_ascii : wordOk [0x41#8, 0x80#8] = false := by decide
theorem test_wf_word_empty : wordOk [] = false := by decide
theorem test_wf_word_long : wordOk (List.replicate 5 0x41#8) = false := by decide
theorem test_wf_dict_stub : dictOk stub.entries = false := by decide
/-- U6: 2048 entries that are not distinct are no configuration; another number of entries is, whatever they are. -/
theorem test_dict_repeated : dictInside (List.replicate 2048 [0x41#8]) = false := by
  have : ¬ (List.replicate 2048 [0x41#8]).Nodup := by rw [List.nodup_replicate]; decide
  rw [dictInside, dictOk, decide_eq_false this, Bool.and_false, List.length_replicate]
  decide

/-! ### Decoding: each word of rule R92, `ZERO` (bits 31:8) and then `OPC` (bits 7:0) written out -/

theorem test_decode_hash0 : decode 0b000000000000000000000000_00000001#32 = .ok .hash0 := by rfl
theorem test_decode_xtr : decode 0b000000000000000000000000_00000010#32 = .ok .xtr := by rfl
theorem test_decode_fold : decode 0b000000000000000000000000_00000011#32 = .ok .fold := by rfl
theorem test_decode_rehash : decode 0b000000000000000000000000_00000100#32 = .ok .rehash := by rfl
theorem test_decode_enc64 : decode 0b000000000000000000000000_00000101#32 = .ok .enc64 := by rfl
theorem test_decode_wenc : decode 0b000000000000000000000000_00000110#32 = .ok .wenc := by rfl
theorem test_decode_chain : decode 0b000000000000000000000000_00010000#32 = .ok .chain := by rfl
theorem test_decode_derive : decode 0b000000000000000000000000_00010001#32 = .ok .derive := by rfl
theorem test_decode_step : decode 0b000000000000000000000000_00010010#32 = .ok .step := by rfl
theorem test_decode_srst : decode 0b000000000000000000000000_11111111#32 = .ok .srst := by rfl
/-- Rule R93: there is no no-operation command. -/
theorem test_decode_zero : decode 0#32 = .error .noSuchOpcode := by rfl
/-- Rule R93 names this word; V-E12. -/
theorem test_decode_upper_bits : decode 0x00000111#32 = .error .zeroFieldNotZero := by rfl
/-- V-E13: not `SRST`. -/
theorem test_decode_not_srst : decode 0x000001FF#32 = .error .zeroFieldNotZero := by rfl
theorem test_table_word : decodeTableWord 32 0x12 = some .step ∧ decodeTableWord 32 0x112 = none := by decide
/-- The host's way in: the word placed for the next step is what that step runs. -/
theorem test_fetch_word :
    step (State.reset.withFetchWord 32 0x11) = exec .derive State.reset := by rfl

/-! ### The pure functions, on the vectors -/

/-- V-X2. -/
theorem test_extract :
    extract #v[0x01#8, 0x23#8, 0x45#8, 0x67#8, 0x89#8, 0xAB#8, 0xCD#8, 0xEF#8, 0xFE#8, 0xDC#8, 0xBA#8, 0x98#8,
      0x76#8, 0x54#8, 0x32#8, 0x10#8]
      = { aa := 0x67452301#32, bb := 0xEFCDAB89#32, cc := 0x98BADCFE#32, dd := 0x10325476#32 } := by decide

/-- V-F3. -/
theorem test_foldF :
    foldF { aa := 0x6BA6FFAF#32, bb := 0x396DF089#32, cc := 0x5FC77831#32, dd := 0xE4F4F450#32 }
      = #v[0x9E#8, 0x87#8, 0x61#8, 0x34#8, 0xD9#8, 0x04#8, 0x99#8, 0xDD#8] := by decide

/-- V-L4. -/
theorem test_enc64 :
    enc64 #v[0x78#8, 0x56#8, 0x34#8, 0x12#8, 0xF0#8, 0xDE#8, 0xBC#8, 0x9A#8] = 0x78563412F0DEBC9A#64 := by decide

/-- V-W10, V-W17: the sums before reduction. -/
theorem test_parity_sum : paritySum 0xFFFFFFFFFFFFFE00#64 = 83 ∧ paritySum 0x9E876134D90499DD#64 = 44 := by decide

/-- V-W8, V-W9: the boundary between the fifth and the sixth index. -/
theorem test_indices_boundary :
    (indices 0x1FF#64).toList = [0#11, 0#11, 0#11, 0#11, 0#11, 2045#11] ∧
    (indices 0x200#64).toList = [0#11, 0#11, 0#11, 0#11, 1#11, 2#11] := by decide

/-- V-W17. -/
theorem test_indices :
    (indices 0x9E876134D90499DD#64).toList = [1268#11, 472#11, 617#11, 1424#11, 588#11, 1908#11] := by decide

/-! ### The commands -/

/-- V-X4: bytes inside a group and order of the groups. -/
theorem test_xtr :
    (after (exec .xtr (withWork fresh
      { fresh.work with digest := #v[0x80#8, 0#8, 0#8, 0#8, 0#8, 0#8, 0#8, 0#8, 0#8, 0#8, 0#8, 0#8, 0#8, 0#8, 0#8,
          0x01#8] }))).map (fun s => s.work.regs)
      = some { aa := 0x00000080#32, bb := 0#32, cc := 0#32, dd := 0x01000000#32 } := by decide

/-- V-E15: `XTR` checks nothing. -/
theorem test_xtr_no_check :
    statusAfter (exec .xtr (withReq fresh 0#32 0xFFFFFFFF#32 0#32 0#32)) = some 0x00000202#32 := by decide

/-- V-F7. -/
theorem test_fold :
    (after (exec .fold (withWork fresh
      { fresh.work with regs := { aa := 0x12345678#32, bb := 0#32, cc := 0#32, dd := 0x9ABCDEF0#32 } }))).map
        (fun s => (s.work.fold.toList, s.count.nfold, s.count.nrehash, s.status.word))
      = some ([0x78#8, 0x56#8, 0x34#8, 0x12#8, 0xF0#8, 0xDE#8, 0xBC#8, 0x9A#8], 1#32, 0#32, 0x00000302#32) := by
  decide

/-- V-L3, read through the window. -/
theorem test_enc64_words :
    (after (exec .enc64 (withWork fresh
      { fresh.work with fold := #v[0x80#8, 0#8, 0#8, 0#8, 0#8, 0#8, 0#8, 0x01#8] }))).map
        (fun s => (slotWord s .valueHi, slotWord s .valueLo, s.status.word))
      = some (0x80000000#32, 0x00000001#32, 0x00000502#32) := by decide

/-- V-W12, with a dictionary of 2048 entries; V-E6, with one of ten, and with one whose entries are no words (U6). -/
theorem test_wenc :
    statusAfter (exec .wenc (coreWith stub false)) = some 0x00000630#32 ∧
    statusAfter (exec .wenc (coreWith oddStub false)) = some 0x00000630#32 ∧
    (after (exec .wenc (withWork (coreWith sampleDict false) { fresh.work with value := 0x8000000000000001#64 }))).map
        (fun s => (s.enc.parity, s.enc.idx.toList, s.status.word))
      = some (3#2, [1024#11, 0#11, 0#11, 0#11, 0#11, 7#11], 0x00000602#32) := by decide +kernel

/-- Rule R151 on V-W1: the word of index 0 six times; rule R152: the bytes after the string are zero. V-A10: with six
words of four letters the string fills `OTPSTR`, and bytes 29 to 31 of the window are zero. -/
theorem test_wenc_string :
    (after (exec .wenc (withWork (coreWith sampleDict false) { fresh.work with value := 0#64 }))).map
        (fun s => (s.enc.otpLen, slotWord s (.otpStr 0), slotWord s (.otpStr 1), slotWord s (.otpStr 4),
          slotWord s (.otpStr 5)))
      = some (17#32, 0x30203030#32, 0x30302030#32, 0x00000030#32, 0#32) ∧
    (after (exec .wenc (coreWith longDict false))).map
        (fun s => (s.enc.otpLen, slotWord s (.otpStr 0), slotWord s (.otpStr 1), slotWord s (.otpStr 7)))
      = some (29#32, 0x42413030#32, 0x41303020#32, 0x00000042#32) := by decide +kernel

/-- V-E8: a length the buffer cannot hold (256 is still accepted); the message of `HASH0` (rule R112), as in V-H1
with the first bytes of each text. -/
theorem test_hash0_request :
    statusAfter (exec .hash0 (withReq fresh 1#32 0#32 257#32 0#32)) = some 0x00000110#32 ∧
    statusAfter (exec .hash0 (withReq fresh 1#32 0#32 256#32 0#32)) = some 0x00000102#32 ∧
    State.message0 { withReq fresh 1#32 0#32 4#32 3#32 with
      mem := Memory.writeBytes (Memory.writeBytes [] 0x100 [0x74#8, 0x65#8, 0x73#8, 0x74#8]) 0x200
        [0x54#8, 0x68#8, 0x69#8, 0x73#8] }
      = [0x74#8, 0x65#8, 0x73#8, 0x74#8, 0x54#8, 0x68#8, 0x69#8] := by decide +kernel

/-- V-H3 without the digest's value: the empty message; `STATUS` and counters as section 3.5 gives them. -/
theorem test_hash0_empty :
    (after (exec .hash0 (withReq fresh 1#32 0#32 0#32 0#32))).map (fun s => (s.work.digest, s.status.word, s.count))
      = some (Config.digest 1#32 [], 0x00000102#32, ⟨0#32, 0#32⟩) := by rfl

/-- V-H4 without the digest's value. -/
theorem test_rehash :
    (after (exec .rehash (withWork (withReq fresh 1#32 0#32 0#32 0#32)
      { fresh.work with fold := #v[0x9E#8, 0x87#8, 0x61#8, 0x34#8, 0xD9#8, 0x04#8, 0x99#8, 0xDD#8] }))).map
        (fun s => (s.work.digest, s.status.word, s.count))
      = some (Config.digest 1#32 [0x9E#8, 0x87#8, 0x61#8, 0x34#8, 0xD9#8, 0x04#8, 0x99#8, 0xDD#8], 0x00000402#32,
          ⟨0#32, 1#32⟩) := by rfl

/-- V-C5: counters and `STATUS`. -/
theorem test_step :
    (after (exec .step (withReq fresh 2#32 0#32 0#32 0#32))).map (fun s => (s.status.word, s.count))
      = some (0x00001202#32, ⟨1#32, 1#32⟩) := by rfl

/-- V-E10. -/
theorem test_step_alg : statusAfter (exec .step (withReq fresh 0xFFFFFFFF#32 0#32 0#32 0#32)) = some 0x00001220#32 := by
  decide

/-- Section 3.6, `SEQ = 2`: counters and `STATUS`. -/
theorem test_chain :
    (after (exec .chain (withReq fresh 1#32 2#32 0#32 0#32))).map (fun s => (s.status.word, s.count))
      = some (0x00001002#32, ⟨3#32, 2#32⟩) := by rfl

/-- V-E1, V-E3: `InvalidArgument` comes before `UnsupportedAlgorithm`. -/
theorem test_chain_negative :
    statusAfter (exec .chain (withReq fresh 1#32 0xFFFFFFFF#32 4#32 4#32)) = some 0x00001010#32 ∧
    statusAfter (exec .chain (withReq fresh 0#32 0xFFFFFFFF#32 4#32 4#32)) = some 0x00001010#32 := by decide

/-- V-E4, V-E5, V-E7: the priority of `DERIVE`'s checks. -/
theorem test_derive_errors :
    statusAfter (exec .derive (withReq (coreWith stub false) 0#32 0#32 0#32 0#32))
      = some 0x00001120#32 ∧
    statusAfter (exec .derive (withReq (coreWith stub false) 1#32 0#32 0#32 0#32))
      = some 0x00001130#32 ∧
    statusAfter (exec .derive (withReq (coreWith noDict true) 1#32 0#32 0#32 0#32)) = some 0x00001110#32 := by decide

/-- V-E17. -/
theorem test_srst :
    (after (exec .srst failed)).map (fun s => (s.status.word, s.req.seq)) = some (0#32, 0#32) := by decide

/-! ### The host interface -/

/-- V-E11, V-E14: words that are no command. -/
theorem test_illegal :
    statusAfter (step (asked fresh [.write 4 0x004 0#32])) = some 0x00000040#32 ∧
    statusAfter (step (asked fresh [.write 4 0x004 7#32])) = some 0x00000740#32 := by decide

/-- V-E16: in `ERROR` both writes are lost. -/
theorem test_error_drops :
    (after (step (asked failed [.write 4 0x010 0#32]))).map (fun s => s.req.seq) = some 0xFFFFFFFF#32 ∧
    statusAfter (step (asked failed [.write 4 0x004 0x10#32])) = some 0x00001010#32 := by decide

/-- V-A3, V-A5: little-endian lanes. -/
theorem test_lanes :
    (after (step (asked fresh [.write 4 0x100 0x74736574#32]))).map (fun s => Memory.readBytes s.mem 0x100 4)
      = some [0x74#8, 0x65#8, 0x73#8, 0x74#8] ∧
    (after (step (asked fresh [.write 4 0x030 0x03020100#32]))).map (fun s => s.work.digest.toList.take 4)
      = some [0#8, 1#8, 2#8, 3#8] := by decide

/-- V-A4, V-A8, V-A1: the write-only buffer, a reserved offset, `ID`. -/
theorem test_reads :
    (after (step (asked { fresh with mem := [(0x200, 0x54#8)] } [.read 4 0x200]))).map (fun s => s.port.reads)
      = some [0#32] ∧
    (after (step (asked fresh [.read 4 0xFFC]))).map (fun s => s.port.reads) = some [0#32] ∧
    (after (step (asked fresh [.read 4 0x000]))).map (fun s => s.port.reads) = some [0x4F545031#32] := by decide

/-- V-A11: while `DERIVE` runs, `STATUS` is read with `BUSY = 1` and a write to `SEQ` is lost. -/
theorem test_busy :
    (after (step (asked (busyWith 0x11#8 2) [.read 4 0x008]))).map (fun s => s.port.reads)
      = some [0x00001101#32] ∧
    (after (step (asked (busyWith 0x11#8 2) [.write 4 0x010 7#32]))).map (fun s => s.req.seq) = some 0#32 := by
  decide

/-- Rule R62: a byte read is no transaction. -/
theorem test_not_a_transaction : refusalOf (step (asked fresh [.read 1 0x000])) = some .notATransaction := by decide

/-- The example of rule R100. -/
theorem test_seed_line :
    lineEvents (.seed [0x74#8, 0x65#8, 0x73#8, 0x74#8]) = [.write 4 0x100 0x74736574#32, .write 4 0x014 4#32] := by
  decide

/-- Program P2, the line `PASS`: the last word of the text is padded. -/
theorem test_pass_line :
    (lineEvents (.pass [0x54#8, 0x68#8, 0x69#8, 0x73#8, 0x20#8, 0x69#8, 0x73#8, 0x20#8, 0x61#8, 0x20#8, 0x74#8, 0x65#8,
      0x73#8, 0x74#8, 0x2E#8])).drop 3 = [.write 4 0x20C 0x002E7473#32, .write 4 0x018 15#32] := by decide

/-! ### Witnesses: a concrete state that meets the hypotheses of each statement that has some, at the boundaries of
its clauses -/

/-- A request at the top of every range (`SEQ`, the lengths), with a dictionary of one's choice. -/
def greatest (dict : Dictionary) : State := withReq (coreWith dict true) 2#32 0x7FFFFFFF#32 256#32 256#32

/-- The same with the sample dictionary. -/
abbrev top : State := greatest sampleDict

/-- A request at the bottom of every range, `REQ_NONEMPTY` true, no dictionary. -/
def least : State := withReq (coreWith noDict true) 1#32 0#32 1#32 1#32

theorem witness_DecodeEncodeRoundTrip : Instr.wf .srst = true := by rfl

theorem witness_StepRunsTheDecodedCommand :
    ((asked fresh [.write 4 0x004 2#32]).due = false ∧
      (asked fresh [.write 4 0x004 2#32]).port.inbox = [.write 4 0x004 2#32] ∧ decode 2#32 = .ok .xtr ∧
      Instr.wf .xtr = true) ∧
    (asked (busyWith 0x02#8 1) [.write 4 0x004 2#32]).due = false ∧
    (busyWith 0x02#8 1).due = true ∧ (asked (busyWith 0x02#8 0) [.poll]).due = true := by
  exact ⟨⟨by rfl, by rfl, by rfl, by rfl⟩, by rfl, by rfl, by rfl⟩

theorem witness_CompletionIsOneStepWithoutError :
    (busyWith 0x05#8 0).inv = true ∧ (busyWith 0x05#8 0).due = true := by decide

/-- The same for a command that checks everything. -/
theorem witness_CompletionOfDerive :
    (withStatus top true false 0#4 0x11#8).inv = true ∧ (withStatus top true false 0#4 0x11#8).due = true := by
  decide +kernel

theorem witness_RunningCommandEndsInFiniteTime :
    (asked (busyWith 0x03#8 5) [.poll]).inv = true ∧ (asked (busyWith 0x03#8 5) [.poll]).phase = .run ∧
    ∀ e ∈ (asked (busyWith 0x03#8 5) [.poll]).port.inbox, e.wf = true := by
  refine ⟨by decide, by decide, ?_⟩
  simp [asked, HostEvent.wf]

theorem witness_QuietCoreKeepsItsState :
    fresh.phase ≠ .run ∧ fresh.port.inbox = [] ∧ failed.phase ≠ .run ∧ failed.port.inbox = [] := by decide

theorem witness_EveryStepKeepsTheInvariant :
    (busyWith 0x05#8 0).inv = true ∧ ∃ t, step (busyWith 0x05#8 0) = .next t := ⟨by decide, _, rfl⟩

theorem witness_NoStepChangesTheConfiguration : ∃ t, step (asked fresh [.reset]) = .next t := ⟨_, rfl⟩

theorem witness_OnlyARequestOutsideTheInterfaceStops :
    (asked fresh [.read 4 0x1000]).inv = true ∧ (asked fresh [.read 4 0x1000]).due = false ∧
    (asked fresh [.read 4 0x1000]).port.inbox = [.read 4 0x1000] ∧ HostEvent.wf (.read 4 0x1000) = false := by decide

/-- One state for each of the four moves. -/
theorem witness_PhaseMovesOnlyAsListed :
    (failed.inv = true ∧ failed.phase = .error ∧
      ∃ t, step (asked failed [.reset]) = .next t ∧ t.phase = .idle) ∧
    ((withLatency fresh 1).inv = true ∧ fresh.phase = .idle ∧
      ∃ t, step (asked (withLatency fresh 1) [.write 4 0x004 2#32]) = .next t ∧ t.phase = .run) ∧
    ((busyWith 0x02#8 0).inv = true ∧ (busyWith 0x02#8 0).phase = .run ∧
      ∃ t, step (busyWith 0x02#8 0) = .next t ∧ t.phase = .idle) ∧
    ∃ t, step (asked fresh [.write 4 0x004 7#32]) = .next t ∧ t.phase = .error :=
  ⟨⟨by decide, by decide, _, rfl, by rfl⟩, ⟨by decide, by decide, _, rfl, by rfl⟩, ⟨by decide, by decide, _, rfl, by rfl⟩,
    _, rfl, by rfl⟩

theorem witness_RunningCommandHoldsItsState :
    (asked (busyWith 0x11#8 1) [.read 4 0x030]).phase = .run ∧
    (asked (busyWith 0x11#8 1) [.read 4 0x030]).due = false ∧
    (∃ t, step (asked (busyWith 0x11#8 1) [.read 4 0x030]) = .next t) ∧
    ∃ t, step (asked (busyWith 0x11#8 1) [.reset]) = .next t := ⟨by rfl, by rfl, ⟨_, rfl⟩, _, rfl⟩

/-- `XTR`, which waits for two host transactions: a read of a register it writes and a write that is lost. -/
theorem witness_AcceptedCommandRunsToCompletion :
    (asked (withLatency fresh 2) [.read 4 0x030, .write 4 0x030 1#32, .poll]).phase = .idle ∧
    Instr.xtr ≠ .srst ∧ (withLatency fresh 2).port.latency ≠ 0 ∧
    (∀ e, exec .xtr (withLatency fresh 2) ≠ .next ((withLatency fresh 2).erred .xtr e)) ∧
    ∀ e ∈ (asked (withLatency fresh 2) [.read 4 0x030, .write 4 0x030 1#32, .poll]).port.inbox,
      e.wf = true ∧ eventResets e = false := by
  refine ⟨by rfl, by decide, by decide, fun e h => ?_, by decide⟩
  have := congrArg (fun o => statusAfter o) h
  revert this
  cases e <;> decide

theorem greatest_dict (d : Dictionary) : (greatest d).cfg.dict = d := rfl
theorem greatest_dict_length : top.cfg.dict.entries.length = 2048 := by
  rw [greatest_dict]; exact sampleDict_length
theorem lengthsFit_greatest (d : Dictionary) : lengthsFit (greatest d) := by
  have h : (greatest d).req = ⟨2#32, 0x7FFFFFFF#32, 256#32, 256#32⟩ := rfl
  unfold lengthsFit
  rw [h]
  exact ⟨by decide, by decide, fun _ => by decide⟩
theorem lengthsFit_least : lengthsFit least := ⟨by decide, by decide, fun _ => ⟨by decide, by decide⟩⟩
theorem lengthsFit_empty : lengthsFit fresh := ⟨by decide, by decide, fun h => by cases h⟩
/-- Both lengths one above their range. -/
theorem lengthsFit_not_above :
    ¬ lengthsFit (withReq fresh 1#32 0#32 257#32 0#32) ∧ ¬ lengthsFit (withReq fresh 1#32 0#32 0#32 257#32) := by
  unfold lengthsFit; decide
/-- An empty seed where the contract asks for one. -/
theorem lengthsFit_not_below : ¬ lengthsFit (withReq (coreWith noDict true) 1#32 0#32 0#32 1#32) := by
  unfold lengthsFit; decide
theorem selectorSupported_both (d : Dictionary) : selectorSupported least ∧ selectorSupported (greatest d) :=
  ⟨.inl rfl, .inr rfl⟩
/-- The selectors next to the supported ones: 0 and 3. -/
theorem selectorSupported_not :
    ¬ selectorSupported fresh ∧ ¬ selectorSupported (withReq fresh 3#32 0#32 0#32 0#32) := by
  unfold selectorSupported; decide

/-- Each state a witness uses may have any latency: zero and not zero. -/
theorem witness_CompletesAs :
    top.port.latency = 0 ∧ (withLatency top 1).port.latency ≠ 0 ∧ (withLatency top 1).phase = .idle := by
  decide

/-- The four commands that take no check, and the hypotheses on `HASH0`, `REHASH`, `STEP`. -/
theorem witness_HashZeroDigestsSeedAndPassphrase :
    top.phase = .idle ∧ lengthsFit top ∧ selectorSupported top ∧ least.phase = .idle ∧
    lengthsFit least ∧ selectorSupported least ∧
    (fresh.phase = .idle ∧ lengthsFit fresh ∧ ¬ selectorSupported fresh) ∧
    ((withReq fresh 1#32 0#32 257#32 0#32).phase = .idle ∧ ¬ lengthsFit (withReq fresh 1#32 0#32 257#32 0#32)) :=
  ⟨by decide, lengthsFit_greatest _, (selectorSupported_both _).2, by decide, lengthsFit_least, (selectorSupported_both noDict).1,
    ⟨by decide, lengthsFit_empty, selectorSupported_not.1⟩, by decide, lengthsFit_not_above.1⟩

theorem witness_RehashDigestsTheFold :
    least.phase = .idle ∧ selectorSupported least ∧ fresh.phase = .idle ∧ ¬ selectorSupported fresh :=
  ⟨by decide, (selectorSupported_both noDict).1, by decide, selectorSupported_not.1⟩

theorem witness_StepDoesOneRound :
    top.phase = .idle ∧ selectorSupported top ∧
    (withReq fresh 3#32 0#32 0#32 0#32).phase = .idle ∧ ¬ selectorSupported (withReq fresh 3#32 0#32 0#32 0#32) :=
  ⟨by decide, (selectorSupported_both _).2, by decide, selectorSupported_not.2⟩

theorem witness_ExtractorWritesTheFourRegisters : fresh.phase = .idle := by decide
theorem witness_FolderWritesTheFold : (withLatency fresh 3).phase = .idle := by decide
theorem witness_LongEncoderWritesTheValue : (withStatus fresh false true 0#4 0x03#8).phase = .idle := by decide

/-- `SEQ` at both ends of its range and just outside it. -/
theorem witness_ChainComputesTheFoldOfTheSequence :
    (top.req.seq.toInt = ((2 ^ 31 - 1 : Nat) : Int) ∧ lengthsFit top ∧ selectorSupported top) ∧
    (least.req.seq.toInt = ((0 : Nat) : Int) ∧ lengthsFit least ∧ selectorSupported least) ∧
    (withReq fresh 1#32 0x80000000#32 0#32 0#32).phase = .idle ∧
    (withReq fresh 1#32 0x80000000#32 0#32 0#32).req.seq.toInt < 0 ∧
    (0 ≤ fresh.req.seq.toInt ∧ lengthsFit fresh ∧ ¬ selectorSupported fresh) :=
  ⟨⟨by decide, lengthsFit_greatest _, (selectorSupported_both _).2⟩, ⟨by decide, lengthsFit_least, (selectorSupported_both noDict).1⟩,
    by decide, by decide, by decide, lengthsFit_empty, selectorSupported_not.1⟩

theorem witness_WordEncoderWritesTheSixWords :
    (top.phase = .idle ∧ Memory.wf top.mem = true ∧ top.cfg.dict.entries.length = 2048) ∧
    (fresh.phase = .idle ∧ Memory.wf fresh.mem = true ∧ fresh.cfg.dict.entries.length ≠ 2048) ∧
    (coreWith bigDict false).cfg.dict.entries.length ≠ 2048 := by
  refine ⟨⟨by decide, by decide, greatest_dict_length⟩, by decide, ?_⟩
  simp [coreWith, bigDict, sampleEntries_length]

theorem witness_DeriveComposesTheWholeDerivation :
    top.phase = .idle ∧ Memory.wf top.mem = true ∧
    top.req.seq.toInt = ((2 ^ 31 - 1 : Nat) : Int) ∧ lengthsFit top ∧ selectorSupported top ∧
    top.cfg.dict.entries.length = 2048 ∧
    (0 ≤ (withReq fresh 1#32 0#32 0#32 0#32).req.seq.toInt ∧ lengthsFit (withReq fresh 1#32 0#32 0#32 0#32) ∧
      selectorSupported (withReq fresh 1#32 0#32 0#32 0#32) ∧
      (withReq fresh 1#32 0#32 0#32 0#32).cfg.dict.entries.length ≠ 2048) :=
  ⟨by decide, by decide, by decide, lengthsFit_greatest _, (selectorSupported_both _).2, greatest_dict_length, by decide,
    ⟨by decide, by decide, fun h => by cases h⟩, .inl rfl, by decide⟩

theorem witness_CommandOutsideIdleIsDropped :
    (busyWith 0x10#8 1).phase ≠ .idle ∧ failed.phase ≠ .idle ∧ Instr.chain ≠ .srst := by decide

theorem witness_CommandsKeepTheRequest :
    Memory.wf fresh.mem = true ∧ (∃ t, exec .xtr fresh = .next t) ∧ ∃ t, sequencer (busyWith 0x05#8 0) = .next t :=
  ⟨by decide, ⟨_, rfl⟩, _, rfl⟩

theorem witness_IllegalWordRaisesIllegalCommand :
    ((asked fresh [.write 4 0x004 0x13#32]).due = false ∧ (asked fresh [.write 4 0x004 0x13#32]).phase = .idle) ∧
    ((asked failed [.write 4 0x004 0x1FF#32]).due = false ∧ (asked failed [.write 4 0x004 0x1FF#32]).phase ≠ .idle) ∧
    (∀ w ∈ [0x13#32, 0x1FF#32],
      w ∉ [0x01#32, 0x02#32, 0x03#32, 0x04#32, 0x05#32, 0x06#32, 0x10#32, 0x11#32, 0x12#32, 0xFF#32]) :=
  ⟨⟨by rfl, by decide⟩, ⟨by rfl, by decide⟩, by simp⟩

/-- The three statements on when an error is raised ask only for `IDLE`. -/
theorem witness_ErrorIsRaisedExactly : fresh.phase = .idle ∧ top.phase = .idle := by decide

theorem witness_ErrorPhaseIsSticky :
    failed.phase = .error ∧ (∃ t, step (asked failed [.read 4 0x008]) = .next t) ∧
    ∃ t, step (asked failed [.write 4 0x004 0xFF#32]) = .next t := ⟨by decide, ⟨_, rfl⟩, _, rfl⟩

theorem witness_ReadOutsideRunReturnsTheRegister :
    (asked fresh [.read 4 0xFFC]).phase ≠ .run ∧ (asked fresh [.read 4 0xFFC]).port.inbox = [.read 4 0xFFC] ∧
    0xFFC % 4 = 0 ∧ 0xFFC ≤ 0xFFC := by decide

/-- At the ends of the ranges of the clauses of the statement on reads in `RUN`. -/
theorem witness_ReadWhileRunning (off : Nat)
    (h : off ∈ [0x000, 0x004, 0x008, 0x00C, 0x018, 0x01C, 0x020, 0x030, 0x098, 0x100, 0x1FC, 0x200, 0x2FC]) :
    (asked (busyWith 0x11#8 1) [.read 4 off]).phase = .run ∧ (asked (busyWith 0x11#8 1) [.read 4 off]).due = false ∧
    (asked (busyWith 0x11#8 1) [.read 4 off]).port.inbox = [.read 4 off] ∧ off % 4 = 0 ∧ off ≤ 0xFFC := by
  have hm : off % 4 = 0 ∧ off ≤ 0xFFC := by revert off; decide
  exact ⟨by rfl, by rfl, by rfl, hm⟩

/-- At the ends of the reserved ranges. -/
theorem witness_ReservedOffsetsReadAsZero (off : Nat)
    (h : off ∈ [0x024, 0x02C, 0x09C, 0x0BC, 0x0C0, 0x0FC, 0x300, 0xFFC]) :
    ((asked (busyWith 0x11#8 1) [.read 4 off]).due = false ∧ (asked fresh [.write 4 off 1#32]).due = false) ∧
    off % 4 = 0 := by
  have hm : off % 4 = 0 := by revert off; decide
  exact ⟨⟨by rfl, by rfl⟩, hm⟩

theorem witness_WriteStoresExactlyThatRegister :
    Memory.wf fresh.mem = true ∧ (asked fresh [.write 4 (slotOffset (.seedBuf 63)) 1#32]).phase = .idle ∧
    slotAccess (.seedBuf 63) = .rw ∧ slotAccess .valueHi = .rw ∧ slotAccess (.fold 1) = .rw := by decide

theorem witness_WriteToPassbufStoresFourBytes (j : Fin 64) :
    Memory.wf fresh.mem = true ∧ (asked fresh [.write 4 (0x200 + 4 * j) 1#32]).phase = .idle ∧
    (asked fresh [.write 4 (0x200 + 4 * j) 1#32]).port.inbox = [.write 4 (0x200 + 4 * j) 1#32] :=
  ⟨by decide, by rfl, rfl⟩

theorem witness_WritesOutsideIdleAreIgnored :
    (asked failed [.write 4 0x010 0#32]).phase ≠ .idle ∧ (asked failed [.write 4 0x010 0#32]).due = false ∧
    (asked (busyWith 0x11#8 1) [.write 4 0x004 0xFF#32]).phase ≠ .idle ∧
    (asked (busyWith 0x11#8 1) [.write 4 0x004 0xFF#32]).due = false := by decide

theorem witness_WritesToReadOnlyRegistersAreIgnored :
    (asked fresh [.write 4 (slotOffset .status) 0xFFFFFFFF#32]).due = false ∧ slotAccess .status = .ro ∧
    slotAccess (.otpStr 15) = .ro := by decide

theorem witness_WaitPollsStatus :
    (asked fresh [.poll]).due = false ∧ (asked (busyWith 0x11#8 1) [.poll]).due = false ∧
    (asked (busyWith 0x11#8 1) [.poll]).status.busy = true := by decide

/-- Two states that differ in a byte of the passphrase, at a step that runs no command that hashes it. -/
theorem witness_PassphraseIsReadByHashingAlone :
    State.inv { fresh with mem := [(0x200, 1#8)] } = true ∧ State.inv { fresh with mem := [(0x200, 2#8)] } = true ∧
    SameButPassphrase { fresh with mem := [(0x200, 1#8)] } { fresh with mem := [(0x200, 2#8)] } ∧
    ¬ State.passphraseUsed { fresh with mem := [(0x200, 1#8)] } := by
  refine ⟨by decide, by decide, ⟨rfl, rfl, rfl, rfl, rfl, rfl, rfl, fun a ha => ?_⟩, ?_⟩
  · have : a ≠ 0x200 := by rintro rfl; exact ha ⟨by decide, by decide⟩
    simp [Memory.read, this]
  · rintro (⟨h, _⟩ | ⟨_, w, rest, i, h, _⟩)
    · exact absurd h (by decide)
    · cases h

theorem witness_OtpStringIsSixWordsAndFits : sampleDict.entries.length = 2048 := sampleDict_length

theorem witness_WellFormedDictionaryIsABijection : dictOk (sampleEntries [0x7F#8, 0#8]) = true :=
  sampleEntries_ok (by decide) (by decide)

theorem witness_ChainThenStepIsTheNextChain :
    least.phase = .idle ∧ least.req.seq.toInt = ((0 : Nat) : Int) ∧ 0 + 1 < 2 ^ 31 ∧ lengthsFit least ∧
    selectorSupported least := ⟨by decide, by decide, by decide, lengthsFit_least, (selectorSupported_both noDict).1⟩

/-- Two states with one request that differ in what they held before. -/
theorem witness_ChainDependsOnTheRequestAlone :
    least.phase = .idle ∧ (withWork least { least.work with value := 1#64 }).phase = .idle ∧
    least.req = (withWork least { least.work with value := 1#64 }).req ∧ lengthsFit least ∧
    lengthsFit (withWork least { least.work with value := 1#64 }) ∧ selectorSupported least ∧
    0 ≤ least.req.seq.toInt ∧
    least.mem = (withWork least { least.work with value := 1#64 }).mem :=
  ⟨by decide, by decide, rfl, lengthsFit_least, lengthsFit_least, (selectorSupported_both noDict).1, by decide, rfl⟩

theorem witness_DeriveEqualsItsComponents :
    top.phase = .idle ∧ Memory.wf top.mem = true ∧
    top.req.seq.toInt = ((2 ^ 31 - 1 : Nat) : Int) ∧ lengthsFit top ∧ selectorSupported top ∧
    top.cfg.dict.entries.length = 2048 :=
  ⟨by decide, by decide, by decide, lengthsFit_greatest _, (selectorSupported_both _).2, greatest_dict_length⟩

end Sys2Proof.Tests
end

section
/-! PROOFS. The state after reset, register by register (rule R40). -/

namespace Sys2Proof.Machine

/-- A byte that no cell lists has its reset content. -/
@[simp] theorem Memory.read_nil (a : Nat) : Memory.read [] a = Config.unwritten := rfl

@[simp] theorem slotWord_id (s : State) : slotWord s .id = Config.coreId := rfl

@[simp] theorem State.reset_phase : State.reset.phase = .idle := by decide

@[simp] theorem State.reset_status_word : State.reset.status.word = 0#32 := by decide

@[simp] theorem State.reset_req :
    State.reset.req = { alg := 0#32, seq := 0#32, seedLen := 0#32, passLen := 0#32 } := rfl

@[simp] theorem State.reset_mem : State.reset.mem = [] := rfl

@[simp] theorem State.reset_digest : State.reset.work.digest = Vector.replicate 16 0#8 := rfl

@[simp] theorem State.reset_fold : State.reset.work.fold = Vector.replicate 8 0#8 := rfl

@[simp] theorem State.reset_regs :
    State.reset.work.regs = { aa := 0#32, bb := 0#32, cc := 0#32, dd := 0#32 } := rfl

@[simp] theorem State.reset_value : State.reset.work.value = 0#64 := rfl

@[simp] theorem State.reset_parity : State.reset.enc.parity = 0#2 := rfl

@[simp] theorem State.reset_otpLen : State.reset.enc.otpLen = 0#32 := rfl

@[simp] theorem State.reset_count : State.reset.count = { nfold := 0#32, nrehash := 0#32 } := rfl

@[simp] theorem State.reset_cfg : State.reset.cfg = Config.params := rfl

/-- Every byte of `OTPSTR`, `SEEDBUF` and `PASSBUF` is 0 after reset. -/
theorem State.reset_mem_read (a : Nat) : Memory.read State.reset.mem a = 0#8 := by
  rw [State.reset_mem, Memory.read_nil]

theorem State.reset_digest_byte (k : Fin 16) : State.reset.work.digest[k] = 0#8 := by
  simp only [State.reset_digest, Fin.getElem_fin, Vector.getElem_replicate]

theorem State.reset_fold_byte (k : Fin 8) : State.reset.work.fold[k] = 0#8 := by
  simp only [State.reset_fold, Fin.getElem_fin, Vector.getElem_replicate]

theorem State.reset_index (j : Fin 6) : indexAt State.reset.enc.idx j = 0#11 := by
  fin_cases j <;> rfl

/-- Settles O10: each row of rule R40's table is one clause. -/
theorem resetLeavesEveryRegisterZero : Obligations.ResetLeavesEveryRegisterZero := by
  unfold Obligations.ResetLeavesEveryRegisterZero
  exact ⟨State.reset_status_word, State.reset_phase, State.reset_req, State.reset_mem_read,
    State.reset_digest_byte, State.reset_regs, State.reset_fold_byte, State.reset_value,
    State.reset_parity, State.reset_index, State.reset_otpLen, State.reset_count,
    slotWord_id State.reset, State.reset_cfg⟩

end Sys2Proof.Machine
end

section
/-! PROOFS. The word of a command (rules R90, R92), and the host transactions outside `RUN` and outside `IDLE`
(rules R64, R69, R71). -/

namespace Sys2Proof.Machine

/-! ### The word of a command -/

theorem opcode_of_commandOfOpcode {o : BitVec 8} {i : Instr} (h : commandOfOpcode o = some i) : opcode i = o := by
  unfold commandOfOpcode at h
  split_ifs at h <;> cases h <;> symm <;> assumption

/-- The fields `ZERO` and `OPC` make up the whole command word (rule R90). -/
theorem zeroField_append_opcField (w : Word) : (zeroField w ++ opcField w : BitVec 32) = w :=
  (BitVec.extractLsb'_append_extractLsb'_eq_extractLsb' rfl).trans BitVec.extractLsb'_eq_self

/-- A command has one word only (rule R92). -/
theorem eq_encode_of_decode {w : Word} {i : Instr} (h : decode w = .ok i) : w = encode i := by
  unfold decode at h
  split at h
  · next hz =>
    split at h
    · next j hj =>
      obtain rfl := Except.ok.inj h
      rw [encode, opcode_of_commandOfOpcode hj, ← hz, zeroField_append_opcField]
    · cases h
  · cases h

/-- `SRST` is the word 0x000000FF and no other (rules R92, R93). -/
theorem decode_eq_srst_iff {w : Word} : decode w = .ok .srst ↔ w = 0x000000FF#32 := by
  constructor
  · exact fun h => eq_encode_of_decode h
  · rintro rfl
    rfl

/-! ### A transaction as a step -/

theorem transactionOk_of_aligned {off : Nat} (ha : off % 4 = 0) (hw : off ≤ 0xFFC) :
    transactionOk 4 off = true := by
  simp [transactionOk, ha, hw]

theorem step_read {s : State} {off : Nat} {rest : List HostEvent} (hd : s.due = false)
    (hi : s.port.inbox = .read 4 off :: rest) (ha : off % 4 = 0) (hw : off ≤ 0xFFC) :
    step s = .next (readSlot (slotAt off) (s.tick rest)) :=
  (step_host hd hi).trans (if_pos (transactionOk_of_aligned ha hw))

theorem step_write {s : State} {off : Nat} {v : Word} {rest : List HostEvent} (hd : s.due = false)
    (hi : s.port.inbox = .write 4 off v :: rest) (ha : off % 4 = 0) (hw : off ≤ 0xFFC) :
    step s = writeSlot (slotAt off) v (s.tick rest) :=
  (step_host hd hi).trans (if_pos (transactionOk_of_aligned ha hw))

/-! ### Reads -/

/-- No completion is due where no command runs (rule R95). -/
theorem due_eq_false_of_not_run {s : State} (h : s.phase ≠ .run) : s.due = false :=
  Bool.eq_false_iff.mpr fun hd => h (due_iff.mp hd).1

theorem readSlot_of_not_run {r : Slot} {s : State} (h : s.phase ≠ .run) :
    readSlot r s = s.giveRead (slotWord s r) :=
  if_neg fun hr => h hr.1

/-- What a register reads as is no matter of the port. -/
@[simp] theorem slotWord_tick (s : State) (rest : List HostEvent) (r : Slot) :
    slotWord (s.tick rest) r = slotWord s r := by
  cases r <;> rfl

/-- Settles O35: outside `RUN` no completion comes before the read, and no register gives a free value. -/
theorem readOutsideRunReturnsTheRegister : Obligations.ReadOutsideRunReturnsTheRegister := by
  unfold Obligations.ReadOutsideRunReturnsTheRegister
  intro s off rest hp hi ha hw
  rw [step_read (due_eq_false_of_not_run hp) hi ha hw, readSlot_of_not_run (by rwa [tick_phase]), slotWord_tick]
  rfl

/-! ### Writes outside `IDLE` -/

/-- A word other than that of `SRST` written to `CMD` outside `IDLE` is dropped, command or not
(rules R69, R94 step 2). -/
theorem cmdWrite_not_idle {w : Word} {s : State} (h : s.phase ≠ .idle) (hw : w ≠ 0x000000FF#32) :
    cmdWrite w s = .next s := by
  obtain ⟨i, hi, hx⟩ | ⟨e, -, hx⟩ := cmdWrite_cases w s
  · have hne : i ≠ .srst := by
      rintro rfl
      exact hw (decode_eq_srst_iff.mp hi)
    rw [hx, exec_not_idle hne h]
  · rw [hx, illegalCommand, if_neg h]

/-- The word of `SRST` written to `CMD` resets in every phase (rule R162). -/
theorem cmdWrite_srst (s : State) : cmdWrite 0x000000FF#32 s = .next s.resetCore := rfl

/-- Outside `IDLE` a write to any register stores nothing, but for `SRST` (rule R69). -/
theorem writeSlot_not_idle {r : Slot} {v : Word} {s : State} (h : s.phase ≠ .idle)
    (hv : ¬ (r = .cmd ∧ v = 0x000000FF#32)) : writeSlot r v s = .next s := by
  obtain ⟨hr, hx⟩ | ⟨-, hidle, -⟩ | ⟨-, -, hx⟩ := writeSlot_cases r v s
  · rw [hx, cmdWrite_not_idle h fun he => hv ⟨hr, he⟩]
  · exact absurd hidle h
  · exact hx

/-- Settles O40: by the register written, `CMD` or another. -/
theorem writesOutsideIdleAreIgnored : Obligations.WritesOutsideIdleAreIgnored := by
  unfold Obligations.WritesOutsideIdleAreIgnored
  intro s off v rest hp hd hi ha hw
  rw [step_write hd hi ha hw]
  constructor
  · intro hne
    exact writeSlot_not_idle (by rwa [tick_phase]) fun ⟨hr, hv⟩ => hne ⟨slotAt_eq_cmd hr, hv⟩
  · rintro ⟨rfl, rfl⟩
    rw [slotAt_cmd]
    exact cmdWrite_srst _

end Sys2Proof.Machine
end

section
/-! PROOFS. The words of the opcode table (rules R90 to R93). -/

namespace Sys2Proof.Machine

/-- The command word of every command decodes to it (rule R92). -/
theorem decode_encode (i : Instr) : decode (encode i) = .ok i := by
  cases i with
  | hash0 => exact Laws.RoundTrip.hash0 rfl
  | xtr => exact Laws.RoundTrip.xtr rfl
  | fold => exact Laws.RoundTrip.fold rfl
  | rehash => exact Laws.RoundTrip.rehash rfl
  | enc64 => exact Laws.RoundTrip.enc64 rfl
  | wenc => exact Laws.RoundTrip.wenc rfl
  | chain => exact Laws.RoundTrip.chain rfl
  | derive => exact Laws.RoundTrip.derive rfl
  | step => exact Laws.RoundTrip.step rfl
  | srst => exact Laws.RoundTrip.srst rfl

/-- All 32 bits are decoded: a command has its word and no other (rule R92). -/
theorem decode_eq_ok_iff {w : Word} {i : Instr} : decode w = .ok i ↔ w = encode i := by
  constructor
  · exact eq_encode_of_decode
  · rintro rfl
    exact decode_encode i

/-- The commands in the order of the rows of rule R92. -/
def commandRows : List Instr :=
  [.hash0, .rehash, .xtr, .fold, .step, .chain, .enc64, .wenc, .derive, .srst]

theorem mem_commandRows (i : Instr) : i ∈ commandRows := by
  cases i <;> decide

/-- A word stands in a command's row of rule R92 exactly when it encodes the command. -/
theorem mem_rowWords_iff {w : Word} {i : Instr} :
    (w, i) ∈ commandRows.map (fun j => (encode j, j)) ↔ w = encode i := by
  constructor
  · intro h
    obtain ⟨j, -, hj⟩ := List.mem_map.mp h
    obtain ⟨hw, rfl⟩ := Prod.mk.inj hj
    exact hw.symm
  · rintro rfl
    exact List.mem_map_of_mem (mem_commandRows i)

/-- Settles O1: the rows of rule R92 are the commands with their encodings, and only those words decode. -/
theorem tenWordsDecodeAndNoOther : Obligations.TenWordsDecodeAndNoOther := by
  unfold Obligations.TenWordsDecodeAndNoOther
  intro w i
  exact decode_eq_ok_iff.trans mem_rowWords_iff.symm

end Sys2Proof.Machine
end

section
/-! PROOFS. The commands that only invoke the Digest Provider (rules R113, R114), and for every command: its checks
in the words of the statements, and how it completes by the registers its pseudocode writes. -/

namespace Sys2Proof.Machine

/-! ### The checks on the request -/

theorem lenOk_iff_lengthsFit {s : State} : s.lenOk = true ↔ lengthsFit s := lenOk_iff

theorem lenOk_eq_false_iff {s : State} : s.lenOk = false ↔ ¬ lengthsFit s :=
  Bool.eq_false_iff.trans lenOk_iff_lengthsFit.not

theorem algOk_iff_selectorSupported {s : State} : s.algOk = true ↔ selectorSupported s := algOk_iff

theorem algOk_eq_false_iff {s : State} : s.algOk = false ↔ ¬ selectorSupported s :=
  Bool.eq_false_iff.trans algOk_iff_selectorSupported.not

/-! ### Completion by the registers written -/

/-- A command whose pseudocode, on the running state, writes the working registers and the counters alone completes
with them, whatever the waiting count (rule R95). -/
theorem completesAs_of_writes {i : Instr} {body : Body} {s : State} {w : Working} {nfold nrehash : Word}
    (hx : exec i s = .next (issue i body s)) (hb : runningBody (opcode i) = some body) (h : s.phase = .idle)
    (he : firstError (checksOf i) s = none)
    (hw : ∀ n, body ((s.running i).setWait n) =
      .ok { (s.running i).setWait n with work := w, count := { nfold := nfold, nrehash := nrehash } }) :
    CompletesAs i s (s.completed i w nfold nrehash) := by
  refine completesAs_of_body hx hb h he fun n => ?_
  rw [complete, hw]
  rfl

/-! ### `HASH0` -/

/-- Acceptance does not touch what rule R112 reads: the message of the running command is that of the request. -/
theorem running_message0 (s : State) (i : Instr) (n : Nat) :
    ((s.running i).setWait n).message0 = initialMessage s := rfl

/-- What `HASH0` writes: `DIGEST`, and no counter (rule R113). -/
theorem hash0Body_running (s : State) (n : Nat) :
    hash0Body ((s.running .hash0).setWait n) =
      .ok { (s.running .hash0).setWait n with
        work := { s.work with digest := Config.digest s.req.alg (initialMessage s) }
        count := { nfold := 0#32, nrehash := 0#32 } } := by
  rw [hash0Body, running_message0]
  rfl

/-- Settles O16: its two checks in the order of rule R175, then the digest of the message of rule R112. -/
theorem hashZeroDigestsSeedAndPassphrase : Obligations.HashZeroDigestsSeedAndPassphrase := by
  unfold Obligations.HashZeroDigestsSeedAndPassphrase
  intro s h
  refine ⟨rfl, fun hlen => ?_, fun hlen halg => ?_, fun hlen halg => ?_⟩
  · have he : firstError (checksOf .hash0) s = some .invalidArgument :=
      firstError_invalid.mpr (.inr ⟨rfl, lenOk_eq_false_iff.mpr hlen⟩)
    exact exec_error (by decide) h he
  · have he : firstError (checksOf .hash0) s = some .unsupportedAlgorithm :=
      firstError_unsupported.mpr
        ⟨nofun, fun _ => lenOk_iff_lengthsFit.mpr hlen, rfl, algOk_eq_false_iff.mpr halg⟩
    exact exec_error (by decide) h he
  · have he : firstError (checksOf .hash0) s = none :=
      firstError_eq_none.mpr
        ⟨nofun, fun _ => lenOk_iff_lengthsFit.mpr hlen, fun _ => algOk_iff_selectorSupported.mpr halg, nofun⟩
    exact completesAs_of_writes rfl rfl h he (hash0Body_running s)

/-! ### `REHASH` -/

/-- What `REHASH` writes: `DIGEST` from the fold, and `NREHASH` from the 0 that acceptance left (rule R114). -/
theorem rehashBody_running (s : State) (n : Nat) :
    rehashBody ((s.running .rehash).setWait n) =
      .ok { (s.running .rehash).setWait n with
        work := { s.work with digest := Config.digest s.req.alg s.work.fold.toList }
        count := { nfold := 0#32, nrehash := 1#32 } } := rfl

/-- Settles O17: its one check, that of the selector, then the digest of the eight fold bytes. -/
theorem rehashDigestsTheFold : Obligations.RehashDigestsTheFold := by
  unfold Obligations.RehashDigestsTheFold
  intro s h
  refine ⟨rfl, fun halg => ?_, fun halg => ?_⟩
  · have he : firstError (checksOf .rehash) s = some .unsupportedAlgorithm :=
      firstError_unsupported.mpr ⟨nofun, nofun, rfl, algOk_eq_false_iff.mpr halg⟩
    exact exec_error (by decide) h he
  · have he : firstError (checksOf .rehash) s = none :=
      firstError_eq_none.mpr ⟨nofun, nofun, fun _ => algOk_iff_selectorSupported.mpr halg, nofun⟩
    exact completesAs_of_writes rfl rfl h he (rehashBody_running s)

end Sys2Proof.Machine
end

section
/-! PROOFS. The Register Extractor and the Register Folder (rules R120 to R125): what the host reads of the registers
they write, and the two commands. -/

namespace Sys2Proof.Machine

/-! ### The words of what they write -/

/-- The reversal and the big-endian reading cancel: the Register Extractor reads its four registers in the byte
order in which the window shows `DIGEST` (rules R61, R121). -/
theorem extract_eq_digestWords (d : Vector Byte 16) :
    extract d =
      { aa := digestWord d 0, bb := digestWord d 1, cc := digestWord d 2, dd := digestWord d 3 } := by
  simp only [extract, be32_eq_le32]
  rfl

/-- `FOLD0` of a fold: its bytes are the lanes of `AA ^ CC`, lowest first (rules R61, R123). -/
theorem foldWord_foldF_zero (g : Regs) : foldWord (foldF g) 0 = g.aa ^^^ g.cc :=
  le32_lanes (g.aa ^^^ g.cc)

/-- `FOLD1` of a fold: its bytes are the lanes of `BB ^ DD`, lowest first (rules R61, R123). -/
theorem foldWord_foldF_one (g : Regs) : foldWord (foldF g) 1 = g.bb ^^^ g.dd :=
  le32_lanes (g.bb ^^^ g.dd)

/-! ### `XTR` and `FOLD` -/

/-- A command for which rule R101 lists no check passes whatever the request and the dictionary are. -/
theorem firstError_no_checks (s : State) :
    firstError { seq := false, len := false, alg := false, dict := false } s = none :=
  firstError_eq_none.mpr ⟨nofun, nofun, nofun, nofun⟩

/-- What `XTR` writes: the four registers, and no counter (rule R122). -/
theorem xtrBody_running (s : State) (n : Nat) :
    xtrBody ((s.running .xtr).setWait n) =
      .ok { (s.running .xtr).setWait n with
        work := { s.work with regs := extract s.work.digest }
        count := { nfold := 0#32, nrehash := 0#32 } } := rfl

/-- What `FOLD` writes: `FOLD`, and `NFOLD` from the 0 that acceptance left (rule R125). -/
theorem foldBody_running (s : State) (n : Nat) :
    foldBody ((s.running .fold).setWait n) =
      .ok { (s.running .fold).setWait n with
        work := { s.work with fold := foldF s.work.regs }
        count := { nfold := 1#32, nrehash := 0#32 } } := rfl

/-- Settles O18: no check, then the extraction, which is the four words of `DIGEST`. -/
theorem extractorWritesTheFourRegisters : Obligations.ExtractorWritesTheFourRegisters := by
  unfold Obligations.ExtractorWritesTheFourRegisters
  intro s h
  have hx : CompletesAs .xtr s (s.completed .xtr { s.work with regs := extract s.work.digest } 0#32 0#32) :=
    completesAs_of_writes rfl rfl h (firstError_no_checks s) (xtrBody_running s)
  have hw := extract_eq_digestWords s.work.digest
  exact ⟨rfl, _, hx, rfl, congrArg Regs.aa hw, congrArg Regs.bb hw, congrArg Regs.cc hw, congrArg Regs.dd hw⟩

/-- Settles O19: no check, then the fold, whose two words are the xors of the registers. -/
theorem folderWritesTheFold : Obligations.FolderWritesTheFold := by
  unfold Obligations.FolderWritesTheFold
  intro s h
  have hx : CompletesAs .fold s (s.completed .fold { s.work with fold := foldF s.work.regs } 1#32 0#32) :=
    completesAs_of_writes rfl rfl h (firstError_no_checks s) (foldBody_running s)
  exact ⟨rfl, _, hx, rfl, foldWord_foldF_zero s.work.regs, foldWord_foldF_one s.work.regs⟩

end Sys2Proof.Machine
end

section
/-! PROOFS. The Hash-Chain Engine (rules R130 to R132): what its loop computes, `STEP` as one round, and `CHAIN`. -/

namespace Sys2Proof.Machine

/-! ### The chain's loop -/

/-- The state at the head of the loop in round `k` (rule R131): `DIGEST = d_k` and `(AA, BB, CC, DD) = g_k`. -/
structure State.InRound (s : State) (m0 : List Byte) (k : Nat) : Prop where
  digest : s.work.digest = chainDigest s.req.alg m0 k
  regs : s.work.regs = extract (chainDigest s.req.alg m0 k)

/-- The first hash and the extraction enter round 0. -/
theorem inRound_zero (s : State) (m0 : List Byte) : (s.hash m0).extractRegs.InRound m0 0 := ⟨rfl, rfl⟩

/-- The message of a re-hash after the fold of round `k` is `f_k` (rules R114, R130). -/
theorem State.InRound.foldMessage_foldRegs {s : State} {m0 : List Byte} {k : Nat} (h : s.InRound m0 k) :
    s.foldRegs.foldMessage = (foldF (extract (chainDigest s.req.alg m0 k))).toList := by
  rw [State.foldMessage, State.foldRegs_work, h.regs]

/-- A pass of the loop that is not the last goes on to the next round. -/
theorem State.InRound.succ {s : State} {m0 : List Byte} {k : Nat} (h : s.InRound m0 k) :
    s.foldRegs.rehashFold.extractRegs.InRound m0 (k + 1) := by
  have hd : s.foldRegs.rehashFold.work.digest = chainDigest s.req.alg m0 (k + 1) := by
    rw [State.rehashFold_work, h.foldMessage_foldRegs]
    rfl
  exact ⟨hd, congrArg extract hd⟩

/-- The last pass of the loop, in round `k`, completes the working registers of the chain. -/
theorem State.InRound.foldRegs_work_eq {s : State} {m0 : List Byte} {k : Nat} (h : s.InRound m0 k) :
    s.foldRegs.work = chainWork s.req.alg m0 k s.work.value := by
  rw [chainWork, ← h.regs, ← h.digest]
  rfl

/-- One more application, counted before the `n` that are still to come. -/
theorem counter_add_one_add (c : Word) (n : Nat) :
    c + 1#32 + BitVec.ofNat 32 n = c + BitVec.ofNat 32 (n + 1) := by
  rw [BitVec.add_assoc, BitVec.ofNat_add n 1, BitVec.add_comm 1#32]

/-- The loop with `n` re-hashes to come, from round `k`: it ends with the registers of round `k + n`, having folded
`n + 1` times and re-hashed `n` times, and writes nothing else (rule R131). -/
theorem chainRounds_eq {m0 : List Byte} (n : Nat) {k : Nat} {s : State} (h : s.InRound m0 k) :
    chainRounds n s =
      { s with
        work := chainWork s.req.alg m0 (k + n) s.work.value
        count :=
          { nfold := s.count.nfold + BitVec.ofNat 32 (n + 1)
            nrehash := s.count.nrehash + BitVec.ofNat 32 n } } := by
  induction n generalizing k s with
  | zero =>
    rw [chainRounds, Nat.add_zero, ← h.foldRegs_work_eq, BitVec.add_zero]
    rfl
  | succ n ih =>
    have hfold : s.foldRegs.rehashFold.extractRegs.count.nfold + BitVec.ofNat 32 (n + 1) =
        s.count.nfold + BitVec.ofNat 32 (n + 1 + 1) := counter_add_one_add _ _
    have hrehash : s.foldRegs.rehashFold.extractRegs.count.nrehash + BitVec.ofNat 32 n =
        s.count.nrehash + BitVec.ofNat 32 (n + 1) := counter_add_one_add _ _
    rw [chainRounds, ih h.succ, hfold, hrehash, Nat.succ_add_eq_add_succ]
    rfl

/-- What the Hash-Chain Engine writes, from any state: the working registers of the last round but for `VALUE`, and
the counters (rule R131). -/
theorem chainEngine_eq (s : State) :
    chainEngine s =
      { s with
        work := chainWork s.req.alg s.message0 s.rounds s.work.value
        count :=
          { nfold := s.count.nfold + BitVec.ofNat 32 (s.rounds + 1)
            nrehash := s.count.nrehash + BitVec.ofNat 32 s.rounds } } := by
  rw [chainEngine, chainRounds_eq s.rounds (inRound_zero s s.message0), Nat.zero_add]
  rfl

/-! ### The sequence number -/

theorem seqOk_eq_false_iff {s : State} : s.seqOk = false ↔ s.req.seq.toInt < 0 :=
  Bool.eq_false_iff.trans (seqOk_iff.not.trans Int.not_le)

theorem rounds_of_toInt {s : State} {n : Nat} (h : s.req.seq.toInt = n) : s.rounds = n := by
  rw [State.rounds, State.seqInt, h, Int.toNat_natCast]

/-- A sequence number is below `2 ^ 31`, so that `NFOLD = n + 1` fits its 32 bits (rules R24, R35). -/
theorem toNat_ofNat_succ_of_toInt {x : Word} {n : Nat} (h : x.toInt = n) :
    (BitVec.ofNat 32 (n + 1)).toNat = n + 1 := by
  have hlt : 2 * x.toInt < 2 ^ 32 := BitVec.two_mul_toInt_lt
  rw [BitVec.toNat_ofNat, Nat.mod_eq_of_lt (by omega)]

/-! ### `STEP` and `CHAIN` -/

/-- What `STEP` writes: each of the three assignments reads what the one before it has left (rule R132). -/
theorem stepBody_running (s : State) (n : Nat) :
    stepBody ((s.running .step).setWait n) =
      .ok { (s.running .step).setWait n with
        work :=
          { s.work with
            digest := Config.digest s.req.alg s.work.fold.toList
            regs := extract (Config.digest s.req.alg s.work.fold.toList)
            fold := foldF (extract (Config.digest s.req.alg s.work.fold.toList)) }
        count := { nfold := 1#32, nrehash := 1#32 } } := rfl

/-- What `CHAIN` writes: the chain's registers, and the counters from the 0 that acceptance left (rule R131). -/
theorem chainBody_running {s : State} {n : Nat} (hn : s.rounds = n) (k : Nat) :
    chainBody ((s.running .chain).setWait k) =
      .ok { (s.running .chain).setWait k with
        work := chainWork s.req.alg (initialMessage s) n s.work.value
        count := { nfold := BitVec.ofNat 32 (n + 1), nrehash := BitVec.ofNat 32 n } } := by
  have hr : ((s.running .chain).setWait k).rounds = n := hn
  have hc : ((s.running .chain).setWait k).count = { nfold := 0#32, nrehash := 0#32 } := rfl
  rw [chainBody, chainEngine_eq, running_message0, hr, hc, BitVec.zero_add, BitVec.zero_add]
  rfl

/-- Settles O20: its one check, that of the selector, then the three assignments in their order. -/
theorem stepDoesOneRound : Obligations.StepDoesOneRound := by
  unfold Obligations.StepDoesOneRound
  intro s h
  refine ⟨rfl, fun halg => ?_, fun halg => ?_⟩
  · have he : firstError (checksOf .step) s = some .unsupportedAlgorithm :=
      firstError_unsupported.mpr ⟨nofun, nofun, rfl, algOk_eq_false_iff.mpr halg⟩
    exact exec_error (by decide) h he
  · have he : firstError (checksOf .step) s = none :=
      firstError_eq_none.mpr ⟨nofun, nofun, fun _ => algOk_iff_selectorSupported.mpr halg, nofun⟩
    exact completesAs_of_writes rfl rfl h he (stepBody_running s)

/-- Settles O21: its checks in the order of rule R175, then the loop's rounds `0` to `n`, by `chainRounds_eq`. -/
theorem chainComputesTheFoldOfTheSequence : Obligations.ChainComputesTheFoldOfTheSequence := by
  unfold Obligations.ChainComputesTheFoldOfTheSequence
  intro s h
  refine ⟨rfl, fun hbad => ?_, fun hseq hlen halg => ?_, fun n hn hlen halg => ?_⟩
  · have he : firstError (checksOf .chain) s = some .invalidArgument :=
      firstError_invalid.mpr (hbad.imp (fun hneg => ⟨rfl, seqOk_eq_false_iff.mpr hneg⟩)
        fun hlen => ⟨rfl, lenOk_eq_false_iff.mpr hlen⟩)
    exact exec_error (by decide) h he
  · have he : firstError (checksOf .chain) s = some .unsupportedAlgorithm :=
      firstError_unsupported.mpr
        ⟨fun _ => seqOk_iff.mpr hseq, fun _ => lenOk_iff_lengthsFit.mpr hlen, rfl, algOk_eq_false_iff.mpr halg⟩
    exact exec_error (by decide) h he
  · have hseq : 0 ≤ s.req.seq.toInt := by omega
    have he : firstError (checksOf .chain) s = none :=
      firstError_eq_none.mpr
        ⟨fun _ => seqOk_iff.mpr hseq, fun _ => lenOk_iff_lengthsFit.mpr hlen,
          fun _ => algOk_iff_selectorSupported.mpr halg, nofun⟩
    exact ⟨toNat_ofNat_succ_of_toInt hn,
      completesAs_of_writes rfl rfl h he (chainBody_running (rounds_of_toInt hn))⟩

end Sys2Proof.Machine
end

section
/-! PROOFS. The Long Encoder (rules R140, R141): the closed form of the number of a fold, and the command. -/

namespace Sys2Proof.Machine

/-! ### The number of a fold -/

theorem toList_eq_eightBytes (f : Vector Byte 8) :
    f.toList = [f[0], f[1], f[2], f[3], f[4], f[5], f[6], f[7]] := by
  refine List.ext_getElem f.length_toList fun k hk _ => ?_
  rw [Vector.length_toList] at hk
  interval_cases k <;> rfl

/-- The passes of the loop of rule R140, written out: each shifts what the earlier bytes have left. -/
theorem enc64_eq_nestedShifts (f : Vector Byte 8) :
    enc64 f =
      (((((((f[0].setWidth 64 <<< 8 ||| f[1].setWidth 64) <<< 8 ||| f[2].setWidth 64) <<< 8 |||
        f[3].setWidth 64) <<< 8 ||| f[4].setWidth 64) <<< 8 ||| f[5].setWidth 64) <<< 8 |||
        f[6].setWidth 64) <<< 8 ||| f[7].setWidth 64) := by
  rw [enc64, toList_eq_eightBytes]
  simp only [List.foldl_cons, List.foldl_nil, BitVec.zero_shiftLeft, BitVec.zero_or]

/-- Settles O46: a shift passes through the bytes assembled so far, so that a byte has moved up by 8 for every byte
that comes after it. -/
theorem longEncoderIsBigEndian : Obligations.LongEncoderIsBigEndian := by
  unfold Obligations.LongEncoderIsBigEndian
  intro f
  rw [enc64_eq_nestedShifts]
  simp only [BitVec.shiftLeft_or_distrib, ← BitVec.shiftLeft_add, Nat.reduceAdd]

/-! ### `ENC64` -/

/-- What `ENC64` writes: `VALUE`, and no counter (rule R141). -/
theorem enc64Body_running (s : State) (n : Nat) :
    enc64Body ((s.running .enc64).setWait n) =
      .ok { (s.running .enc64).setWait n with
        work := { s.work with value := enc64 s.work.fold }
        count := { nfold := 0#32, nrehash := 0#32 } } := rfl

/-- Settles O22: no check, then the number of the fold into `VALUE`. -/
theorem longEncoderWritesTheValue : Obligations.LongEncoderWritesTheValue := by
  unfold Obligations.LongEncoderWritesTheValue
  intro s h
  exact ⟨rfl, completesAs_of_writes rfl rfl h (firstError_no_checks s) (enc64Body_running s)⟩

end Sys2Proof.Machine
end

section
/-! PROOFS. The Parity / Word Encoder (rules R147 to R153): the bits of the six indices, the string of the six words,
and the command. -/

namespace Sys2Proof.Machine

/-! ### The bits of the six indices -/

/-- The mask keeps exactly the bits to which the width cuts, so that it has no effect (rule R147). -/
theorem group11_eq_extractLsb' (v : BitVec 64) (off : Nat) : group11 v off = v.extractLsb' off 11 := by
  have hmask : (0x7FF#64).setWidth 11 = BitVec.allOnes 11 := by decide
  rw [group11, BitVec.setWidth_and, hmask, BitVec.and_allOnes]
  rfl

/-- The mask of rule R148 clears the two bits of the parity and no other of the eleven. -/
theorem checksumMask_getLsbD {k : Nat} (hk : k < 11) : (0x7FC#64).getLsbD k = decide (2 ≤ k) := by
  interval_cases k <;> rfl

/-- The sixth index: the two bits that the shift leaves free are those of the parity (rule R148). -/
theorem checksumIndex_eq_append (v : BitVec 64) (p : BitVec 2) :
    checksumIndex v p = v.extractLsb' 0 9 ++ p := by
  refine BitVec.eq_of_getLsbD_eq fun k hk => ?_
  have hw : k < 64 := by omega
  simp only [checksumIndex, BitVec.getLsbD_setWidth, BitVec.getLsbD_or, BitVec.getLsbD_and,
    BitVec.getLsbD_shiftLeft, checksumMask_getLsbD hk, BitVec.getLsbD_append, BitVec.getLsbD_extractLsb', hk, hw,
    decide_true, Bool.true_and]
  by_cases hp : k < 2
  · simp [hp]
  · have hv : k - 2 < 9 := by omega
    simp [hp, hv, Nat.le_of_not_lt hp]

/-- Settles O49: five indices are groups of rule R147, the sixth is that of rule R148. -/
theorem indicesAreTheBitsOfTheValue : Obligations.IndicesAreTheBitsOfTheValue := by
  unfold Obligations.IndicesAreTheBitsOfTheValue
  intro v
  simp only [indices, group11_eq_extractLsb', checksumIndex_eq_append]

/-! ### The string of the six words -/

/-- An index never points outside a dictionary of 2048 entries (rule R153 (b)). -/
theorem getElem?_eq_entryAt {dict : List (List Byte)} (h : dict.length = 2048) (i : BitVec 11) :
    dict[i.toNat]? = some (entryAt dict i) := by
  have hi : i.toNat < dict.length := h ▸ index_lt i
  rw [entryAt, List.getElem?_eq_getElem hi, Option.getD_some]

theorem lookupWords_eq {dict : List (List Byte)} (h : dict.length = 2048) (x : Indices) :
    lookupWords dict x = some (x.toList.map (entryAt dict)) := by
  have hget : (fun i : BitVec 11 => dict[i.toNat]?) = fun i => pure (entryAt dict i) :=
    funext (getElem?_eq_entryAt h)
  rw [lookupWords, hget, List.mapM_pure]
  rfl

/-- The six words joined by single spaces are the text of rule R151 as the statements write it out. -/
theorem joinWords_map_entryAt (dict : List (List Byte)) (v : BitVec 64) :
    joinWords ((indices v).toList.map (entryAt dict)) = otpText dict v := by
  simp [joinWords, Indices.toList, otpText]

theorem otpString_eq_otpText {dict : List (List Byte)} (h : dict.length = 2048) (v : BitVec 64) :
    otpString dict v = some (otpText dict v) := by
  rw [otpString, lookupWords_eq h, Option.map_some, joinWords_map_entryAt]

/-! ### What the Word Encoder writes -/

/-- With 2048 entries the pseudocode of the Word Encoder writes the text of `VALUE` (rules R152, R153 (b)). -/
theorem encodeWords_eq {s : State} (h : s.cfg.dict.entries.length = 2048) :
    encodeWords s = .ok (s.putOtp (otpText s.cfg.dict.entries s.work.value)) := by
  rw [encodeWords, otpString_eq_otpText h]

/-- The bytes of `OTPSTR` after the write: the string, and zeros after it (rule R152). -/
theorem read_putOtp_otpStr {s : State} {str : List Byte} (h : Memory.canonical s.mem = true) {k : Nat}
    (hk : k < Config.strMax) : Memory.read (s.putOtp str).mem (otpBase + k) = str.getD k 0#8 := by
  rw [State.putOtp_mem, read_writeBytes h, otpBytes_length, if_pos ⟨by omega, by omega⟩, Nat.add_sub_cancel_left,
    otpBytes_getD str hk]

/-- The Word Encoder writes no byte outside `OTPSTR` (rule R152). -/
theorem read_putOtp_outside {s : State} {str : List Byte} (h : Memory.canonical s.mem = true) {a : Nat}
    (ha : ¬ (otpBase ≤ a ∧ a < otpBase + Config.strMax)) :
    Memory.read (s.putOtp str).mem a = Memory.read s.mem a := by
  rw [State.putOtp_mem, read_writeBytes h, otpBytes_length, if_neg ha]

/-- After the write of its text, a state holds the encoding of its own `VALUE`. -/
theorem holdsOtp_putOtp {s : State} (h : Memory.canonical s.mem = true) :
    (s.putOtp (otpText s.cfg.dict.entries s.work.value)).holdsOtp s.work.value :=
  ⟨rfl, fun _ hk => read_putOtp_otpStr h hk⟩

/-! ### `WENC` -/

/-- The state the completion of `WENC` leaves: no counter has counted, and the text of `VALUE` is written. -/
def State.wencDone (s : State) : State :=
  (s.completed .wenc s.work 0#32 0#32).putOtp (otpText s.cfg.dict.entries s.work.value)

theorem dictCountOk_eq_false_iff {s : State} : s.dictCountOk = false ↔ s.cfg.dict.entries.length ≠ 2048 :=
  Bool.eq_false_iff.trans dictCountOk_iff.not

/-- The pseudocode of `WENC`, run on the running state, leaves that state, whatever the waiting count. -/
theorem complete_wencBody_running {s : State} (hd : s.cfg.dict.entries.length = 2048) (n : Nat) :
    complete wencBody ((s.running .wenc).setWait n) = s.wencDone := by
  have hd' : ((s.running .wenc).setWait n).cfg.dict.entries.length = 2048 := hd
  rw [complete, wencBody, encodeWords_eq hd']
  rfl

/-- Settles O23: its one check, that of the dictionary, then the writes of the Word Encoder on a memory in its
canonical form. -/
theorem wordEncoderWritesTheSixWords : Obligations.WordEncoderWritesTheSixWords := by
  unfold Obligations.WordEncoderWritesTheSixWords
  intro s h hwf
  obtain ⟨hmem, _⟩ := wf_iff.mp hwf
  refine ⟨rfl, fun hd => ?_, fun hd => ⟨s.wencDone, ?_, rfl, rfl, rfl, rfl, rfl, ?_, rfl, rfl, fun a ha => ?_⟩⟩
  · have he : firstError (checksOf .wenc) s = some .dictionaryConfiguration :=
      firstError_dictionary.mpr ⟨nofun, nofun, nofun, rfl, dictCountOk_eq_false_iff.mpr hd⟩
    exact exec_error (by decide) h he
  · have he : firstError (checksOf .wenc) s = none :=
      firstError_eq_none.mpr ⟨nofun, nofun, nofun, fun _ => dictCountOk_iff.mpr hd⟩
    exact completesAs_of_body rfl rfl h he (complete_wencBody_running hd)
  · exact holdsOtp_putOtp (s := s.completed .wenc s.work 0#32 0#32) hmem
  · exact read_putOtp_outside (s := s.completed .wenc s.work 0#32 0#32) hmem ha

end Sys2Proof.Machine
end

section
/-! PROOFS. The public entry point and the system command (rules R160, R162): `DERIVE` as the Hash-Chain Engine, the
Long Encoder and the Word Encoder in a row, and `SRST`. -/

namespace Sys2Proof.Machine

/-! ### `SRST` -/

/-- `SRST` looks at no phase (rules R94 step 1, R162). -/
theorem exec_srst (s : State) : exec .srst s = .next s.resetCore := rfl

/-- The reset input (rule R200). -/
theorem perform_reset (s : State) : perform .reset s = .next s.resetCore := rfl

theorem resetCore_phase (s : State) : s.resetCore.phase = .idle := State.reset_phase

/-- Settles O11: the command and the reset input share the one reset, and `SRST` has the one word of rule R92. -/
theorem softResetInEveryPhase : Obligations.SoftResetInEveryPhase := by
  unfold Obligations.SoftResetInEveryPhase
  intro s
  refine ⟨rfl, ⟨s.resetCore, exec_srst s, perform_reset s, rfl, resetCore_phase s, ?_⟩, fun w _ hw hd => ?_⟩
  · exact ⟨rfl, rfl, rfl, rfl, rfl, rfl, rfl, rfl⟩
  · exact hw (decode_eq_srst_iff.mp hd)

/-! ### The state `DERIVE` leaves -/

/-- `VALUE` after a derivation of `n` re-hashes: the number of the final fold `f_n` (rules R130, R140). -/
def State.derivedValue (s : State) (n : Nat) : BitVec 64 :=
  enc64 (foldF (extract (chainDigest s.req.alg (initialMessage s) n)))

/-- The state the completion of `DERIVE` leaves but for the Word Encoder's writes: the chain's registers, the value
of its fold, and the chain's counters. -/
def State.deriveChained (s : State) (n : Nat) : State :=
  s.completed .derive (chainWork s.req.alg (initialMessage s) n (s.derivedValue n))
    (BitVec.ofNat 32 (n + 1)) (BitVec.ofNat 32 n)

/-- The state the completion of `DERIVE` leaves: the text of the new `VALUE` is written too. -/
def State.deriveDone (s : State) (n : Nat) : State :=
  (s.deriveChained n).putOtp (otpText s.cfg.dict.entries (s.derivedValue n))

/-! ### `DERIVE` -/

/-- The first two parts of the pseudocode on the running state: the chain counts from the 0 that acceptance left, and
the Long Encoder takes the chain's own fold (rule R160). -/
theorem encodeFold_chainEngine_running {s : State} {n : Nat} (hn : s.rounds = n) (k : Nat) :
    (chainEngine ((s.running .derive).setWait k)).encodeFold =
      { (s.running .derive).setWait k with
        work := chainWork s.req.alg (initialMessage s) n (s.derivedValue n)
        count := { nfold := BitVec.ofNat 32 (n + 1), nrehash := BitVec.ofNat 32 n } } := by
  have hr : ((s.running .derive).setWait k).rounds = n := hn
  have hc : ((s.running .derive).setWait k).count = { nfold := 0#32, nrehash := 0#32 } := rfl
  rw [chainEngine_eq, running_message0, hr, hc, BitVec.zero_add, BitVec.zero_add]
  rfl

/-- The whole pseudocode on the running state leaves `deriveDone`, whatever the waiting count: with 2048 entries the
Word Encoder takes no error (rules R153 (b), R160). -/
theorem complete_deriveBody_running {s : State} {n : Nat} (hn : s.rounds = n)
    (hd : s.cfg.dict.entries.length = 2048) (k : Nat) :
    complete deriveBody ((s.running .derive).setWait k) = s.deriveDone n := by
  have hd' : (chainEngine ((s.running .derive).setWait k)).encodeFold.cfg.dict.entries.length = 2048 := by
    rw [encodeFold_chainEngine_running hn]
    exact hd
  rw [complete, deriveBody, encodeWords_eq hd', encodeFold_chainEngine_running hn]
  rfl

/-- Settles O24: its checks in the order of rule R175, then the chain of O21, the number of its fold, and the writes
of the Word Encoder on a memory in its canonical form. -/
theorem deriveComposesTheWholeDerivation : Obligations.DeriveComposesTheWholeDerivation := by
  unfold Obligations.DeriveComposesTheWholeDerivation
  intro s h hwf
  obtain ⟨hmem, _⟩ := wf_iff.mp hwf
  refine ⟨rfl, fun hbad => ?_, fun hseq hlen halg => ?_, fun hseq hlen halg hd => ?_, fun n hn hlen halg hd => ?_⟩
  · have he : firstError (checksOf .derive) s = some .invalidArgument :=
      firstError_invalid.mpr (hbad.imp (fun hneg => ⟨rfl, seqOk_eq_false_iff.mpr hneg⟩)
        fun hlen => ⟨rfl, lenOk_eq_false_iff.mpr hlen⟩)
    exact exec_error (by decide) h he
  · have he : firstError (checksOf .derive) s = some .unsupportedAlgorithm :=
      firstError_unsupported.mpr
        ⟨fun _ => seqOk_iff.mpr hseq, fun _ => lenOk_iff_lengthsFit.mpr hlen, rfl, algOk_eq_false_iff.mpr halg⟩
    exact exec_error (by decide) h he
  · have he : firstError (checksOf .derive) s = some .dictionaryConfiguration :=
      firstError_dictionary.mpr
        ⟨fun _ => seqOk_iff.mpr hseq, fun _ => lenOk_iff_lengthsFit.mpr hlen,
          fun _ => algOk_iff_selectorSupported.mpr halg, rfl, dictCountOk_eq_false_iff.mpr hd⟩
    exact exec_error (by decide) h he
  · have hseq : 0 ≤ s.req.seq.toInt := by omega
    have he : firstError (checksOf .derive) s = none :=
      firstError_eq_none.mpr
        ⟨fun _ => seqOk_iff.mpr hseq, fun _ => lenOk_iff_lengthsFit.mpr hlen,
          fun _ => algOk_iff_selectorSupported.mpr halg, fun _ => dictCountOk_iff.mpr hd⟩
    refine ⟨s.deriveDone n, ?_, rfl, rfl, rfl, rfl, ?_, rfl, rfl, rfl, fun a ha => ?_⟩
    · exact completesAs_of_body rfl rfl h he (complete_deriveBody_running (rounds_of_toInt hn) hd)
    · exact holdsOtp_putOtp (s := s.deriveChained n) hmem
    · exact read_putOtp_outside (s := s.deriveChained n) hmem ha

end Sys2Proof.Machine
end

section
/-! PROOFS. When each error is raised (rules R171 to R176): a word that is no command, and for the commands the check
columns of rule R101 and the fact that only a failing check makes a command record an error. -/

namespace Sys2Proof.Machine

/-! ### A word that is no command -/

/-- The ten words of rule R92, in the order of its opcode map. -/
def commandWords : List Word :=
  [0x01#32, 0x02#32, 0x03#32, 0x04#32, 0x05#32, 0x06#32, 0x10#32, 0x11#32, 0x12#32, 0xFF#32]

theorem encode_mem_commandWords (i : Instr) : encode i ∈ commandWords := by
  cases i <;> decide

/-- What a write of a word other than the ten to `CMD` does (rules R93, R94 steps 2 to 4). -/
theorem cmdWrite_not_command {w : Word} {s : State} (hw : w ∉ commandWords) :
    cmdWrite w s = .next (illegalCommand w s) := by
  obtain ⟨i, hi, -⟩ | ⟨-, -, hx⟩ := cmdWrite_cases w s
  · exact absurd (eq_encode_of_decode hi ▸ encode_mem_commandWords i) hw
  · exact hx

/-- `IllegalCommand` is recorded with the low byte of the word, and nothing else changes (rules R174, R176). -/
theorem illegalCommand_idle {w : Word} {s : State} (h : s.phase = .idle) :
    illegalCommand w s =
      { s with status := { busy := false, done := false, err := 4#4, opc := w.extractLsb' 0 8 } } :=
  if_pos h

theorem illegalCommand_not_idle {w : Word} {s : State} (h : s.phase ≠ .idle) : illegalCommand w s = s :=
  if_neg h

/-- Settles O28: such a word is decoded as no command, and the phase decides. -/
theorem illegalWordRaisesIllegalCommand : Obligations.IllegalWordRaisesIllegalCommand := by
  unfold Obligations.IllegalWordRaisesIllegalCommand
  intro s w rest hd hi hw
  have hx : step s = .next (illegalCommand w (s.tick rest)) :=
    (step_write hd hi rfl (by decide)).trans (cmdWrite_not_command hw)
  constructor
  · intro h
    rw [hx, illegalCommand_idle (by rwa [tick_phase])]
  · intro h
    rw [hx, illegalCommand_not_idle (by rwa [tick_phase])]

/-! ### The check columns of rule R101 -/

theorem checksOf_seq_iff {i : Instr} : (checksOf i).seq = true ↔ i = .chain ∨ i = .derive := by
  cases i <;> decide

theorem checksOf_len_iff {i : Instr} : (checksOf i).len = true ↔ i = .hash0 ∨ i = .chain ∨ i = .derive := by
  cases i <;> decide

theorem checksOf_alg_iff {i : Instr} :
    (checksOf i).alg = true ↔ i ∈ [Instr.hash0, .rehash, .step, .chain, .derive] := by
  cases i <;> decide

theorem checksOf_dict_iff {i : Instr} : (checksOf i).dict = true ↔ i = .wenc ∨ i = .derive := by
  cases i <;> decide

/-! ### The check `seq` as a bit -/

/-- `sext_32(SEQ)` is negative exactly if bit 31 of `SEQ` is 1 (rules R24, R171 (a)). -/
theorem seqOk_eq_false_iff_bit {s : State} : s.seqOk = false ↔ s.req.seq.getLsbD 31 = true := by
  rw [seqOk_eq_false_iff, ← BitVec.msb_eq_getLsbD_last, BitVec.msb_eq_toInt, decide_eq_true_iff]

theorem seqOk_iff_bit {s : State} : s.seqOk = true ↔ s.req.seq.getLsbD 31 = false := by
  rw [← Bool.not_eq_false, seqOk_eq_false_iff_bit, Bool.not_eq_true]

/-! ### Only a failing check raises an error -/

theorem errorCode_injective {e e' : ErrorCode} (h : errorCode e = errorCode e') : e = e' := by
  revert h
  cases e <;> cases e' <;> decide

/-- `SRST` has no check that could fail (rule R101). -/
theorem ne_srst_of_firstError {i : Instr} {s : State} {e : ErrorCode} (he : firstError (checksOf i) s = some e) :
    i ≠ .srst := by
  rintro rfl
  exact absurd (he.symm.trans (firstError_no_checks s)) nofun

/-- The pseudocode of a command whose checks pass takes no error and leaves `STATUS` to the completion (rule R95): the
checks of rule R101 include that of the dictionary wherever the Word Encoder runs. -/
theorem runningBody_ok {i : Instr} {body : Body} {s : State} (hb : runningBody (opcode i) = some body)
    (he : firstError (checksOf i) s = none) : ∃ t, body s = .ok t ∧ t.status = s.status := by
  obtain ⟨-, -, -, hdict⟩ := firstError_eq_none.mp he
  cases i with
  | srst => cases hb
  | wenc =>
    obtain rfl := Option.some.inj hb
    obtain ⟨str, -, hok⟩ := encodeWords_ok (s := s) (dictCountOk_iff.mp (hdict rfl))
    exact ⟨_, hok, rfl⟩
  | derive =>
    obtain rfl := Option.some.inj hb
    obtain ⟨hstatus, -, -, -, hcfg, -⟩ := chainEngine_frame s
    have hd : (chainEngine s).encodeFold.cfg.dict.entries.length = 2048 := by
      rw [State.encodeFold_cfg, hcfg]
      exact dictCountOk_iff.mp (hdict rfl)
    obtain ⟨str, -, hok⟩ := encodeWords_ok hd
    exact ⟨_, hok, hstatus⟩
  | chain =>
    obtain rfl := Option.some.inj hb
    obtain ⟨hstatus, -⟩ := chainEngine_frame s
    exact ⟨_, rfl, hstatus⟩
  | _ =>
    obtain rfl := Option.some.inj hb
    exact ⟨_, rfl, rfl⟩

/-- A command whose checks pass records no error, whether it completes at once or is left running
(rules R94 step 6, R95). -/
theorem exec_no_error {i : Instr} {s : State} (h : s.phase = .idle) (he : firstError (checksOf i) s = none) :
    ∃ t, exec i s = .next t ∧ t.status.err = 0#4 := by
  by_cases hi : i = .srst
  · subst hi
    exact ⟨s.resetCore, exec_srst s, rfl⟩
  obtain ⟨body, hb, hx⟩ := exec_issue hi
  refine ⟨issue i body s, hx s, ?_⟩
  obtain ⟨hne, -⟩ | ⟨e, -, hsome, -⟩ | ⟨-, -, -, hc⟩ | ⟨-, -, -, hr⟩ := issue_cases i body s
  · exact absurd h hne
  · exact absurd (he.symm.trans hsome) nofun
  · have he' : firstError (checksOf i) ((s.running i).setWait s.port.wait) = none :=
      (firstError_congr rfl rfl).trans he
    obtain ⟨t, hok, hstatus⟩ := runningBody_ok hb he'
    rw [hc, complete, hok, State.finish_status, Status.finished_err, hstatus]
    rfl
  · rw [hr]
    rfl

/-- In `IDLE` a command raises exactly the error of its first failing check (rules R94 step 5, R175). -/
theorem exec_eq_erred_iff {i : Instr} {s : State} {e : ErrorCode} (h : s.phase = .idle) :
    exec i s = .next (s.erred i e) ↔ firstError (checksOf i) s = some e := by
  constructor
  · intro hx
    cases he : firstError (checksOf i) s with
    | none =>
      obtain ⟨t, ht, herr⟩ := exec_no_error h he
      obtain rfl := Host.Outcome.next.inj (hx.symm.trans ht)
      exact absurd herr (errorCode_ne_zero e)
    | some e' =>
      have hs := Host.Outcome.next.inj (hx.symm.trans (exec_error (ne_srst_of_firstError he) h he))
      have hcode : errorCode e = errorCode e' := congrArg (fun t : State => t.status.err) hs
      rw [errorCode_injective hcode]
  · intro he
    exact exec_error (ne_srst_of_firstError he) h he

/-- Settles O29: the first check in the order is that of `seq` and `len` together. -/
theorem invalidArgumentIsRaisedExactly : Obligations.InvalidArgumentIsRaisedExactly := by
  unfold Obligations.InvalidArgumentIsRaisedExactly
  refine ⟨rfl, fun s i h => ?_⟩
  rw [exec_eq_erred_iff h, firstError_invalid, checksOf_seq_iff, checksOf_len_iff, seqOk_eq_false_iff_bit,
    lenOk_eq_false_iff]

/-- Settles O30: the selector is checked after `seq` and `len`. -/
theorem unsupportedAlgorithmIsRaisedExactly : Obligations.UnsupportedAlgorithmIsRaisedExactly := by
  unfold Obligations.UnsupportedAlgorithmIsRaisedExactly
  refine ⟨rfl, fun s i h => ?_⟩
  rw [exec_eq_erred_iff h, firstError_unsupported, checksOf_seq_iff, checksOf_len_iff, checksOf_alg_iff, seqOk_iff_bit,
    lenOk_iff_lengthsFit, algOk_eq_false_iff]
  constructor
  · rintro ⟨hseq, hlen, hi, halg⟩
    exact ⟨hi, halg, hlen, hseq⟩
  · rintro ⟨hi, halg, hlen, hseq⟩
    exact ⟨hseq, hlen, hi, halg⟩

/-- Settles O31: the dictionary is checked last; of the two commands that check it, `WENC` has no other check and
`DERIVE` has all. -/
theorem dictionaryErrorIsRaisedExactly : Obligations.DictionaryErrorIsRaisedExactly := by
  unfold Obligations.DictionaryErrorIsRaisedExactly
  refine ⟨rfl, fun s i h => ?_⟩
  rw [exec_eq_erred_iff h, firstError_dictionary, checksOf_dict_iff, dictCountOk_eq_false_iff, seqOk_iff_bit,
    lenOk_iff_lengthsFit, algOk_iff_selectorSupported]
  constructor
  · rintro ⟨hseq, hlen, halg, hi, hd⟩
    refine ⟨hi, hd, ?_⟩
    rintro rfl
    exact ⟨hseq rfl, hlen rfl, halg rfl⟩
  · rintro ⟨rfl | rfl, hd, hderive⟩
    · exact ⟨nofun, nofun, nofun, .inl rfl, hd⟩
    · obtain ⟨hseq, hlen, halg⟩ := hderive rfl
      exact ⟨fun _ => hseq, fun _ => hlen, fun _ => halg, .inr rfl, hd⟩

end Sys2Proof.Machine
end

section
/-! PROOFS. What a completion writes, what the invariant says of a running command, and what each event from outside
does (rules R42, R62 to R71, R94, R95): the facts from which every statement about a whole step is derived. -/

namespace Sys2Proof.Machine

/-! ### What a command's pseudocode writes -/

/-- The write set of the commands (rules R42, R101): working and result registers, counters, the bytes of `OTPSTR`.
What stays is the rest of the state. -/
structure WritesResults (s t : State) : Prop where
  status : t.status = s.status
  req : t.req = s.req
  cfg : t.cfg = s.cfg
  port : t.port = s.port
  mem : t.mem = s.mem ∨ ∃ str, t.mem = (s.putOtp str).mem

theorem WritesResults.wf {s t : State} (h : WritesResults s t) (hm : Memory.wf s.mem = true) :
    Memory.wf t.mem = true := by
  obtain hs | ⟨str, hs⟩ := h.mem
  · rwa [hs]
  · rw [hs]
    exact wf_putOtp hm

theorem WritesResults.read_outside {s t : State} (h : WritesResults s t) (hm : Memory.wf s.mem = true) {a : Nat}
    (ha : ¬ (otpBase ≤ a ∧ a < otpBase + Config.strMax)) : Memory.read t.mem a = Memory.read s.mem a := by
  obtain hs | ⟨str, hs⟩ := h.mem
  · rw [hs]
  · rw [hs]
    exact read_putOtp_outside (wf_iff.mp hm).1 ha

theorem encodeWords_writes {s t : State} (h : encodeWords s = .ok t) : WritesResults s t := by
  obtain ⟨str, -, hok⟩ | ⟨-, herr⟩ := encodeWords_cases s
  · obtain rfl := Except.ok.inj (hok.symm.trans h)
    exact ⟨rfl, rfl, rfl, rfl, .inr ⟨str, rfl⟩⟩
  · exact absurd (herr.symm.trans h) nofun

theorem chainEngine_writes (s : State) : WritesResults s (chainEngine s) := by
  obtain ⟨hstatus, hreq, -, hmem, hcfg, hport, -⟩ := chainEngine_frame s
  exact ⟨hstatus, hreq, hcfg, hport, .inl hmem⟩

/-- An opcode with pseudocode is that of a command. -/
theorem exists_opcode_of_runningBody {o : BitVec 8} {body : Body} (hb : runningBody o = some body) :
    ∃ i, opcode i = o := by
  cases hi : commandOfOpcode o with
  | none =>
    rw [runningBody, hi] at hb
    cases hb
  | some i => exact ⟨i, opcode_of_commandOfOpcode hi⟩

/-- No command writes outside the write set (rule R42). -/
theorem runningBody_writes {o : BitVec 8} {body : Body} {s t : State} (hb : runningBody o = some body)
    (h : body s = .ok t) : WritesResults s t := by
  obtain ⟨i, rfl⟩ := exists_opcode_of_runningBody hb
  cases i with
  | srst => cases hb
  | wenc =>
    obtain rfl := Option.some.inj hb
    exact encodeWords_writes h
  | chain =>
    obtain rfl := Option.some.inj hb
    obtain rfl := Except.ok.inj h
    exact chainEngine_writes s
  | derive =>
    obtain rfl := Option.some.inj hb
    obtain ⟨hstatus, hreq, -, hmem, hcfg, hport, -⟩ := chainEngine_frame s
    have he := encodeWords_writes h
    refine ⟨he.status.trans hstatus, he.req.trans hreq, he.cfg.trans hcfg, he.port.trans hport, ?_⟩
    simpa only [State.putOtp_mem, State.encodeFold_mem, hmem] using he.mem
  | _ =>
    obtain rfl := Option.some.inj hb
    obtain rfl := Except.ok.inj h
    exact ⟨rfl, rfl, rfl, rfl, .inl rfl⟩

/-- The completion of a command whose checks pass takes no error (rule R95). -/
theorem complete_of_checks {i : Instr} {body : Body} {s : State} (hb : runningBody (opcode i) = some body)
    (he : firstError (checksOf i) s = none) : ∃ u, WritesResults s u ∧ complete body s = u.finish := by
  obtain ⟨u, hok, -⟩ := runningBody_ok hb he
  exact ⟨u, runningBody_writes hb hok, by rw [complete, hok]⟩

/-! ### A command written to `CMD` in `IDLE` -/

/-- The checks look at nothing that acceptance changes (rule R95: none fails later). -/
theorem firstError_running {c : Checks} (s : State) (i : Instr) : firstError c (s.running i) = firstError c s :=
  firstError_congr rfl rfl

theorem running_phase (s : State) (i : Instr) : (s.running i).phase = .run :=
  phase_run_iff.mpr ⟨rfl, rfl⟩

/-- Everything a command other than `SRST` can do in `IDLE`: record the error of its first failing check, complete
at once, or be left running (rules R94, R95, R176). -/
theorem exec_idle_cases {i : Instr} {s t : State} (hi : i ≠ .srst) (h : s.phase = .idle) (hx : exec i s = .next t) :
    (∃ e, firstError (checksOf i) s = some e ∧ t = s.erred i e) ∨
    (∃ u, WritesResults ((s.running i).setWait s.port.wait) u ∧ t = u.finish) ∨
    (firstError (checksOf i) s = none ∧ t = s.running i) := by
  obtain ⟨body, hb, hbody⟩ := exec_issue hi
  obtain rfl := Host.Outcome.next.inj ((hbody s).symm.trans hx)
  obtain ⟨hne, -⟩ | ⟨e, -, he, ht⟩ | ⟨-, he, -, ht⟩ | ⟨-, he, -, ht⟩ := issue_cases i body s
  · exact absurd h hne
  · exact .inl ⟨e, he, ht⟩
  · obtain ⟨u, hu, hc⟩ := complete_of_checks (s := (s.running i).setWait s.port.wait) hb
      ((firstError_congr rfl rfl).trans he)
    exact .inr (.inl ⟨u, hu, ht.trans hc⟩)
  · exact .inr (.inr ⟨he, ht⟩)

/-! ### The invariant -/

theorem inv_iff {s : State} :
    s.inv = true ↔ Memory.wf s.mem = true ∧ s.status.exclusive = true ∧ s.status.errLegal = true ∧
      (s.status.busy = true → s.runningOk = true) := by
  simp only [State.inv, Bool.and_eq_true, Bool.or_eq_true, Bool.not_eq_true', and_assoc]
  cases s.status.busy <;> simp

theorem inv_mem {s : State} (h : s.inv = true) : Memory.wf s.mem = true := (inv_iff.mp h).1

/-- The invariant of a core in which no command runs. -/
theorem inv_of_not_busy {s : State} (hm : Memory.wf s.mem = true) (hb : s.status.busy = false)
    (hx : s.status.exclusive = true) (he : s.status.errLegal = true) : s.inv = true :=
  inv_iff.mpr ⟨hm, hx, he, fun h => absurd (hb.symm.trans h) nofun⟩

/-- The invariant is no matter of the port. -/
theorem inv_with_port (s : State) (p : Port) : State.inv { s with port := p } = s.inv := rfl

theorem runningOk_iff {s : State} :
    s.runningOk = true ↔ ∃ i, commandOfOpcode s.status.opc = some i ∧ i ≠ .srst ∧
      firstError (checksOf i) s = none ∧ s.count.nfold = 0#32 ∧ s.count.nrehash = 0#32 := by
  unfold State.runningOk
  cases commandOfOpcode s.status.opc with
  | none => simp
  | some i => simp [and_assoc]

theorem commandOfOpcode_opcode (i : Instr) : commandOfOpcode (opcode i) = some i := by
  cases i <;> rfl

/-- A completion that is due under the invariant: it takes no error and stays in the write set. -/
theorem sequencer_of_inv {s : State} (hs : s.inv = true) (hrun : s.phase = .run) :
    ∃ u, WritesResults s u ∧ sequencer s = .next u.finish := by
  obtain ⟨-, -, -, hbusy⟩ := inv_iff.mp hs
  obtain ⟨i, hi, hne, he, -⟩ := runningOk_iff.mp (hbusy (phase_run_iff.mp hrun).2)
  obtain ⟨body, hb, -⟩ := exec_issue hne
  obtain ⟨u, hu, hc⟩ := complete_of_checks hb he
  rw [opcode_of_commandOfOpcode hi] at hb
  exact ⟨u, hu, by rw [sequencer, hb, ← hc]⟩

/-- `STATUS` after the completion of a command that was running (rule R95). -/
theorem finish_status_of_run {s u : State} (hu : WritesResults s u) (hrun : s.phase = .run) :
    u.finish.status = { busy := false, done := true, err := 0#4, opc := s.status.opc } := by
  obtain ⟨herr, -⟩ := phase_run_iff.mp hrun
  rw [State.finish_status, hu.status, Status.finished, herr]

theorem finish_phase_of_run {s u : State} (hu : WritesResults s u) (hrun : s.phase = .run) :
    u.finish.phase = .idle := by
  rw [State.phase, finish_status_of_run hu hrun]
  rfl

theorem inv_finish {s u : State} (hm : Memory.wf s.mem = true) (hu : WritesResults s u) (hrun : s.phase = .run) :
    u.finish.inv = true := by
  refine inv_of_not_busy (hu.wf hm) rfl ?_ ?_ <;> rw [finish_status_of_run hu hrun] <;> rfl

theorem inv_erred {s : State} (hm : Memory.wf s.mem = true) (i : Instr) (e : ErrorCode) : (s.erred i e).inv = true := by
  refine inv_of_not_busy hm rfl rfl ?_
  cases e <;> rfl

/-- Acceptance leaves a running command that can complete (rule R94). -/
theorem inv_running {s : State} {i : Instr} (hm : Memory.wf s.mem = true) (hi : i ≠ .srst)
    (he : firstError (checksOf i) s = none) : (s.running i).inv = true :=
  inv_iff.mpr ⟨hm, rfl, rfl, fun _ =>
    runningOk_iff.mpr ⟨i, commandOfOpcode_opcode i, hi, (firstError_running s i).trans he, rfl, rfl⟩⟩

theorem inv_resetCore (s : State) : s.resetCore.inv = true := rfl

/-! ### An event from outside -/

/-- Which events reset the core (rules R162, R200). -/
theorem eventResets_iff {e : HostEvent} :
    eventResets e = true ↔ e = .reset ∨ e = .write 4 0x004 0x000000FF#32 := by
  cases e <;> simp [eventResets, and_assoc]

/-- Everything an event from outside can do to a core (rules R62 to R71, R94, R162, R174, R200): change the port
alone, reset, store a register, issue a command, or raise `IllegalCommand`; the last three in `IDLE` alone. -/
inductive HostEffect (s : State) : HostEvent → State → Prop
  | port {e : HostEvent} (p : Port) (hwait : p.wait = s.port.wait)
      (hinbox : ∀ e' ∈ p.inbox, e' = e ∨ e' ∈ s.port.inbox) : HostEffect s e { s with port := p }
  | reset {e : HostEvent} (he : eventResets e = true) : HostEffect s e s.resetCore
  | store (off : Nat) (r : Slot) (v : Word) (hidle : s.phase = .idle) :
      HostEffect s (.write 4 off v) (storeSlot r v s)
  | command (w : Word) (i : Instr) (t : State) (hidle : s.phase = .idle) (hw : decode w = .ok i) (hi : i ≠ .srst)
      (hx : exec i s = .next t) : HostEffect s (.write 4 0x004 w) t
  | illegal (w : Word) (hidle : s.phase = .idle) (hw : ∀ i, decode w ≠ .ok i) :
      HostEffect s (.write 4 0x004 w)
        { s with status := { busy := false, done := false, err := 4#4, opc := w.extractLsb' 0 8 } }

/-- A read changes the port alone (rule R64). -/
theorem readSlot_effect (e : HostEvent) (r : Slot) (s : State) : HostEffect s e (readSlot r s) := by
  obtain ⟨-, -, h⟩ | ⟨-, h⟩ := readSlot_cases r s
  · rw [h]
    exact .port _ rfl fun _ => .inr
  · rw [h]
    exact .port _ rfl fun _ => .inr

/-- What `WAIT` does: it gives the host `STATUS`, and stands again in front while `BUSY = 1` (rule R99). -/
theorem pollStatus_eq (s : State) :
    pollStatus s = { s with
      port := { s.port with
        inbox := if s.status.word.extractLsb' 0 1 = 1#1 then .poll :: s.port.inbox else s.port.inbox
        reads := s.status.word :: s.port.reads } } := by
  have hr : readSlot .status s = s.giveRead s.status.word := if_neg fun h => h.2 rfl
  rw [pollStatus, hr]
  split <;> rfl

theorem pollStatus_effect (s : State) : HostEffect s .poll (pollStatus s) := by
  rw [pollStatus_eq]
  refine .port _ rfl fun e' he' => ?_
  dsimp only at he'
  split at he'
  · exact List.mem_cons.mp he'
  · exact .inr he'

/-- An event that leaves the core as it is. -/
theorem HostEffect.unchanged (e : HostEvent) (s : State) : HostEffect s e s :=
  .port s.port rfl fun _ => .inr

theorem cmdWrite_effect {w : Word} {s t : State} (h : cmdWrite w s = .next t) :
    HostEffect s (.write 4 0x004 w) t := by
  by_cases hsrst : w = 0x000000FF#32
  · subst hsrst
    obtain rfl := Host.Outcome.next.inj ((cmdWrite_srst s).symm.trans h)
    exact .reset rfl
  by_cases hidle : s.phase = .idle
  · obtain ⟨i, hi, hx⟩ | ⟨e, he, hx⟩ := cmdWrite_cases w s
    · have hne : i ≠ .srst := by
        rintro rfl
        exact hsrst (decode_eq_srst_iff.mp hi)
      exact .command w i t hidle hi hne (hx.symm.trans h)
    · obtain rfl := Host.Outcome.next.inj (hx.symm.trans h)
      rw [illegalCommand_idle hidle]
      exact .illegal w hidle fun i hi => absurd (he.symm.trans hi) nofun
  · obtain rfl := Host.Outcome.next.inj ((cmdWrite_not_idle hidle hsrst).symm.trans h)
    exact HostEffect.unchanged _ s

theorem writeSlot_effect {off : Nat} {v : Word} {s t : State} (h : writeSlot (slotAt off) v s = .next t) :
    HostEffect s (.write 4 off v) t := by
  obtain ⟨hr, hx⟩ | ⟨-, hidle, hx⟩ | ⟨-, -, hx⟩ := writeSlot_cases (slotAt off) v s
  · obtain rfl := slotAt_eq_cmd hr
    exact cmdWrite_effect (hx.symm.trans h)
  · obtain rfl := Host.Outcome.next.inj (hx.symm.trans h)
    exact .store off (slotAt off) v hidle
  · obtain rfl := Host.Outcome.next.inj (hx.symm.trans h)
    exact HostEffect.unchanged _ s

theorem perform_effect {e : HostEvent} {s t : State} (h : perform e s = .next t) : HostEffect s e t := by
  obtain ⟨off, rfl, -, rfl⟩ | ⟨off, v, rfl, -, hw⟩ | ⟨rfl, rfl⟩ | ⟨rfl, rfl⟩ := perform_next_cases h
  · exact readSlot_effect _ _ s
  · exact writeSlot_effect hw
  · exact pollStatus_effect s
  · exact .reset rfl

/-- Everything a step that answers a next state can do (rule R6). -/
theorem step_next_cases {s t : State} (h : step s = .next t) :
    (s.due = true ∧ sequencer s = .next t) ∨
    (s.due = false ∧ s.port.inbox = [] ∧ t = s) ∨
    (∃ e rest, s.due = false ∧ s.port.inbox = e :: rest ∧ HostEffect (s.tick rest) e t) := by
  obtain ⟨hd, hx⟩ | ⟨hd, hi, hx⟩ | ⟨e, rest, hd, hi, hx⟩ := step_cases s
  · exact .inl ⟨hd, hx.symm.trans h⟩
  · exact .inr (.inl ⟨hd, hi, (Host.Outcome.next.inj (hx.symm.trans h)).symm⟩)
  · exact .inr (.inr ⟨e, rest, hd, hi, perform_effect (hx.symm.trans h)⟩)

/-! ### The invariant is kept -/

theorem inv_of_effect {s t : State} {e : HostEvent} (hs : s.inv = true) (h : HostEffect s e t) : t.inv = true := by
  have hm := inv_mem hs
  cases h with
  | port p => exact (inv_with_port s _).trans hs
  | reset => exact inv_resetCore s
  | store off r v hidle =>
    obtain ⟨-, hx, he, -⟩ := inv_iff.mp hs
    obtain ⟨hstatus, -⟩ := storeSlot_frame r v s
    refine inv_of_not_busy (wf_storeSlot hm) ?_ ?_ ?_ <;> rw [hstatus]
    · exact (phase_idle_iff.mp hidle).2
    · exact hx
    · exact he
  | command w i t hidle hw hi hx =>
    obtain ⟨e, -, rfl⟩ | ⟨u, hu, rfl⟩ | ⟨he, rfl⟩ := exec_idle_cases hi hidle hx
    · exact inv_erred hm i e
    · exact inv_finish (s := (s.running i).setWait s.port.wait) hm hu (running_phase s i)
    · exact inv_running hm hi he
  | illegal w => exact inv_of_not_busy hm rfl rfl rfl

/-- Settles O8: by what the step does, a completion or an event from outside. -/
theorem everyStepKeepsTheInvariant : Obligations.EveryStepKeepsTheInvariant := by
  unfold Obligations.EveryStepKeepsTheInvariant
  intro s t hs h
  obtain ⟨hd, hseq⟩ | ⟨-, -, rfl⟩ | ⟨e, rest, -, -, heff⟩ := step_next_cases h
  · obtain ⟨hrun, -⟩ := due_iff.mp hd
    obtain ⟨u, hu, hx⟩ := sequencer_of_inv hs hrun
    obtain rfl := Host.Outcome.next.inj (hx.symm.trans hseq)
    exact inv_finish (inv_mem hs) hu hrun
  · exact hs
  · exact inv_of_effect (s := s.tick rest) hs heff

/-- Settles O9: every register is zero, so no command runs and no byte is listed. -/
theorem resetHasTheInvariant : Obligations.ResetHasTheInvariant := inv_resetCore State.reset

end Sys2Proof.Machine
end

section
/-! PROOFS. Whole steps and runs (rules R6, R22, R39, R42, R94, R95, R177, R186, R210): what a step may change in each
phase, and that a running command ends. -/

namespace Sys2Proof.Machine

/-! ### Single steps -/

/-- Settles O4: `CMD` stands at offset 4, so the transaction is the write of a command word. -/
theorem stepRunsTheDecodedCommand : Obligations.StepRunsTheDecodedCommand := by
  unfold Obligations.StepRunsTheDecodedCommand
  refine ⟨fun s w rest i hd hi hw _ => ?_, fun s hd => step_due hd⟩
  rw [step_write hd hi rfl (by decide), slotAt_cmd]
  obtain ⟨j, hj, hx⟩ | ⟨e, he, -⟩ := cmdWrite_cases w (s.tick rest)
  · obtain rfl := Except.ok.inj (hj.symm.trans hw)
    exact hx
  · exact absurd (he.symm.trans hw) nofun

/-- Settles O7: no completion is due, and there is no event to take. -/
theorem quietCoreKeepsItsState : Obligations.QuietCoreKeepsItsState := by
  unfold Obligations.QuietCoreKeepsItsState
  intro s hp hi
  exact step_quiet (due_eq_false_of_not_run hp) hi

/-- Settles O26: a command other than `SRST` is dropped outside `IDLE`. -/
theorem commandOutsideIdleIsDropped : Obligations.CommandOutsideIdleIsDropped := by
  unfold Obligations.CommandOutsideIdleIsDropped
  intro s i hp hi
  exact exec_not_idle hi hp

/-- Settles O5: the invariant lets the running command complete without error, within the write set. -/
theorem completionIsOneStepWithoutError : Obligations.CompletionIsOneStepWithoutError := by
  unfold Obligations.CompletionIsOneStepWithoutError
  intro s hs hd
  obtain ⟨hrun, -⟩ := due_iff.mp hd
  obtain ⟨u, hu, hx⟩ := sequencer_of_inv hs hrun
  refine ⟨u.finish, (step_due hd).trans hx, finish_status_of_run hu hrun, finish_phase_of_run hu hrun, hu.req, hu.cfg,
    ?_, ?_, fun a ha => hu.read_outside (inv_mem hs) ha⟩
  · rw [State.finish_port, hu.port]
  · rw [State.finish_port, hu.port]

/-! ### What no step or command changes -/

/-- A completion, of a state with the invariant or without, changes no byte outside `OTPSTR`, no request register
and no configuration (rules R39, R42). -/
theorem sequencer_frame {s t : State} (h : sequencer s = .next t) :
    t.req = s.req ∧ t.cfg = s.cfg ∧ (Memory.wf s.mem = true →
      ∀ a, ¬ (otpBase ≤ a ∧ a < otpBase + Config.strMax) → Memory.read t.mem a = Memory.read s.mem a) := by
  obtain ⟨body, hb, hx⟩ | ⟨-, hx⟩ := sequencer_cases s
  · obtain rfl := Host.Outcome.next.inj (hx.symm.trans h)
    obtain ⟨u, hok, hc⟩ | ⟨e, -, hc⟩ := complete_cases body s
    · have hu := runningBody_writes hb hok
      rw [hc]
      exact ⟨hu.req, hu.cfg, fun hm a ha => hu.read_outside hm ha⟩
    · rw [hc]
      exact ⟨rfl, rfl, fun _ _ _ => rfl⟩
  · exact absurd (hx.symm.trans h) nofun

/-- The same of the write of a command other than `SRST` to `CMD`. -/
theorem exec_frame {i : Instr} {s t : State} (hi : i ≠ .srst) (hx : exec i s = .next t) :
    t.req = s.req ∧ t.cfg = s.cfg ∧ (Memory.wf s.mem = true →
      ∀ a, ¬ (otpBase ≤ a ∧ a < otpBase + Config.strMax) → Memory.read t.mem a = Memory.read s.mem a) := by
  by_cases hidle : s.phase = .idle
  · obtain ⟨e, -, rfl⟩ | ⟨u, hu, rfl⟩ | ⟨-, rfl⟩ := exec_idle_cases hi hidle hx
    · exact ⟨rfl, rfl, fun _ _ _ => rfl⟩
    · exact ⟨hu.req, hu.cfg, fun hm a ha => hu.read_outside hm ha⟩
    · exact ⟨rfl, rfl, fun _ _ _ => rfl⟩
  · obtain rfl := Host.Outcome.next.inj ((exec_not_idle hi hidle).symm.trans hx)
    exact ⟨rfl, rfl, fun _ _ _ => rfl⟩

/-- Settles O27: the two request buffers lie above `OTPSTR`, the only bytes in the write set. -/
theorem commandsKeepTheRequest : Obligations.CommandsKeepTheRequest := by
  unfold Obligations.CommandsKeepTheRequest
  intro s t hm h
  have houtside (a : Nat) (ha : 0x100 ≤ a) : ¬ (otpBase ≤ a ∧ a < otpBase + Config.strMax) := by
    simp only [otpBase, Config.strMax]
    omega
  obtain ⟨i, hi, hx⟩ | hx := h
  · obtain ⟨hreq, -, hread⟩ := exec_frame hi hx
    exact ⟨hreq, fun a ha _ => hread hm a (houtside a ha)⟩
  · obtain ⟨hreq, -, hread⟩ := sequencer_frame hx
    exact ⟨hreq, fun a ha _ => hread hm a (houtside a ha)⟩

theorem effect_cfg {s t : State} {e : HostEvent} (h : HostEffect s e t) : t.cfg = s.cfg := by
  cases h with
  | port p => rfl
  | reset => rfl
  | store off r v =>
    obtain ⟨-, -, -, hcfg, -⟩ := storeSlot_frame r v s
    exact hcfg
  | command w i t hidle hw hi hx =>
    obtain ⟨-, hcfg, -⟩ := exec_frame hi hx
    exact hcfg
  | illegal w => rfl

/-- Settles O12: by what the step does. -/
theorem noStepChangesTheConfiguration : Obligations.NoStepChangesTheConfiguration := by
  unfold Obligations.NoStepChangesTheConfiguration
  intro s t h
  obtain ⟨-, hseq⟩ | ⟨-, -, rfl⟩ | ⟨e, rest, -, -, heff⟩ := step_next_cases h
  · obtain ⟨-, hcfg, -⟩ := sequencer_frame hseq
    exact hcfg
  · rfl
  · exact effect_cfg (s := s.tick rest) heff

/-! ### Which steps have a meaning -/

/-- A write to a register always has a meaning, if only that it is ignored (rules R65, R69, R94). -/
theorem writeSlot_next (r : Slot) (v : Word) (s : State) : ∃ t, writeSlot r v s = .next t := by
  obtain ⟨-, hx⟩ | ⟨-, -, hx⟩ | ⟨-, -, hx⟩ := writeSlot_cases r v s
  · obtain ⟨i, -, hc⟩ | ⟨e, -, hc⟩ := cmdWrite_cases v s
    · rw [hx, hc]
      exact exec_next i s
    · exact ⟨_, hx.trans hc⟩
  · exact ⟨_, hx⟩
  · exact ⟨_, hx⟩

theorem perform_read {bytes off : Nat} (h : (HostEvent.read bytes off).wf = true) (s : State) :
    perform (.read bytes off) s = .next (readSlot (slotAt off) s) := if_pos h

theorem perform_write {bytes off : Nat} {v : Word} (h : (HostEvent.write bytes off v).wf = true) (s : State) :
    perform (.write bytes off v) s = writeSlot (slotAt off) v s := if_pos h

/-- An event that is a transaction of the interface, or the reset input, has a meaning in every state (rule R62). -/
theorem perform_of_wf {e : HostEvent} (he : e.wf = true) (s : State) : ∃ t, perform e s = .next t := by
  cases e with
  | read bytes off => exact ⟨_, perform_read he s⟩
  | write bytes off v =>
    obtain ⟨t, ht⟩ := writeSlot_next (slotAt off) v s
    exact ⟨t, (perform_write he s).trans ht⟩
  | poll => exact ⟨_, rfl⟩
  | reset => exact ⟨_, rfl⟩

/-- Any other request is refused (rule R62). -/
theorem perform_of_not_wf {e : HostEvent} (he : e.wf = false) (s : State) :
    perform e s = .refused .notATransaction := by
  have hne : ¬ e.wf = true := Bool.eq_false_iff.mp he
  cases e with
  | read bytes off => exact if_neg hne
  | write bytes off v => exact if_neg hne
  | poll => cases he
  | reset => cases he

/-- Under the invariant a step answers a next state, but for a request that is no transaction. -/
theorem step_outcome {s : State} (hs : s.inv = true) :
    (∃ t, step s = .next t ∧ ∀ e rest, s.due = false → s.port.inbox = e :: rest → e.wf = true) ∨
    (∃ e rest, s.due = false ∧ s.port.inbox = e :: rest ∧ e.wf = false ∧ step s = .refused .notATransaction) := by
  obtain ⟨hd, hx⟩ | ⟨-, hi, hx⟩ | ⟨e, rest, hd, hi, hx⟩ := step_cases s
  · obtain ⟨u, -, hseq⟩ := sequencer_of_inv hs (due_iff.mp hd).1
    exact .inl ⟨u.finish, hx.trans hseq, fun _ _ hnd => absurd (hd.symm.trans hnd) nofun⟩
  · exact .inl ⟨s, hx, fun _ _ _ hcons => absurd (hi.symm.trans hcons) nofun⟩
  · cases he : e.wf with
    | true =>
      obtain ⟨t, ht⟩ := perform_of_wf he (s.tick rest)
      refine .inl ⟨t, hx.trans ht, fun e' rest' _ hcons => ?_⟩
      obtain ⟨rfl, -⟩ := List.cons.inj (hi.symm.trans hcons)
      exact he
    | false => exact .inr ⟨e, rest, hd, hi, he, hx.trans (perform_of_not_wf he _)⟩

/-- Settles O13: the refused request is the one that `step_outcome` names. -/
theorem onlyARequestOutsideTheInterfaceStops : Obligations.OnlyARequestOutsideTheInterfaceStops := by
  unfold Obligations.OnlyARequestOutsideTheInterfaceStops
  intro s hs
  obtain ⟨t, hx, hwf⟩ | ⟨e, rest, hd, hi, he, hx⟩ := step_outcome hs
  · refine ⟨fun f => by simp [hx], fun r => ⟨fun hr => absurd (hx.symm.trans hr) nofun, ?_⟩⟩
    rintro ⟨-, hd, e, rest, hi, he⟩
    exact absurd (he.symm.trans (hwf e rest hd hi)) nofun
  · refine ⟨fun f => by simp [hx], fun r => ⟨fun hr => ?_, ?_⟩⟩
    · exact ⟨(Host.Outcome.refused.inj (hx.symm.trans hr)).symm, hd, e, rest, hi, he⟩
    · rintro ⟨rfl, -⟩
      exact hx

/-! ### The phase -/

/-- Outside `IDLE` an event from outside changes the port alone, unless it resets the core (rules R64, R69, R70). -/
theorem effect_not_idle {s t : State} {e : HostEvent} (hidle : s.phase ≠ .idle) (h : HostEffect s e t) :
    (∃ p : Port, t = { s with port := p } ∧ p.wait = s.port.wait ∧ ∀ e' ∈ p.inbox, e' = e ∨ e' ∈ s.port.inbox) ∨
    (eventResets e = true ∧ t = s.resetCore) := by
  cases h with
  | port p hwait hinbox => exact .inl ⟨_, rfl, hwait, hinbox⟩
  | reset he => exact .inr ⟨he, rfl⟩
  | store off r v h => exact absurd h hidle
  | command w i t h => exact absurd h hidle
  | illegal w h => exact absurd h hidle

theorem inbox_of_eventResets {s : State} {e : HostEvent} {rest : List HostEvent} (hi : s.port.inbox = e :: rest)
    (he : eventResets e = true) :
    ∃ rest, s.port.inbox = .reset :: rest ∨ s.port.inbox = .write 4 0x004 0x000000FF#32 :: rest := by
  obtain rfl | rfl := eventResets_iff.mp he
  · exact ⟨rest, .inl hi⟩
  · exact ⟨rest, .inr hi⟩

/-- Settles O15: a step that is not due is an event from outside, and the phase is not `IDLE`. -/
theorem runningCommandHoldsItsState : Obligations.RunningCommandHoldsItsState := by
  unfold Obligations.RunningCommandHoldsItsState
  intro s t hrun hd h
  have hidle : s.phase ≠ .idle := by simp [hrun]
  obtain ⟨hd', -⟩ | ⟨-, -, rfl⟩ | ⟨e, rest, -, hi, heff⟩ := step_next_cases h
  · exact absurd (hd.symm.trans hd') nofun
  · exact .inl ⟨t.port, rfl⟩
  · obtain ⟨p, rfl, -⟩ | ⟨he, rfl⟩ := effect_not_idle (s := s.tick rest) hidle heff
    · exact .inl ⟨p, rfl⟩
    · exact .inr ⟨inbox_of_eventResets hi he, rfl, rfl, rfl, rfl, rfl, rfl⟩

/-- Settles O32: no completion is due in `ERROR`, and the phase is not `IDLE`. -/
theorem errorPhaseIsSticky : Obligations.ErrorPhaseIsSticky := by
  unfold Obligations.ErrorPhaseIsSticky
  intro s t herr h
  have hidle : s.phase ≠ .idle := by simp [herr]
  have hd : s.due = false := due_eq_false_of_not_run (by simp [herr])
  obtain ⟨hd', -⟩ | ⟨-, -, rfl⟩ | ⟨e, rest, -, hi, heff⟩ := step_next_cases h
  · exact absurd (hd.symm.trans hd') nofun
  · exact .inl ⟨rfl, rfl, rfl, rfl, rfl, rfl⟩
  · obtain ⟨p, rfl, -⟩ | ⟨he, rfl⟩ := effect_not_idle (s := s.tick rest) hidle heff
    · exact .inl ⟨rfl, rfl, rfl, rfl, rfl, rfl⟩
    · exact .inr ⟨inbox_of_eventResets hi he, rfl, rfl, rfl, rfl, rfl, rfl⟩

/-- The field `OPC` of a command's word is its opcode (rule R92). -/
theorem opcode_of_decode {w : Word} {i : Instr} (h : decode w = .ok i) : opcode i = w.extractLsb' 0 8 := by
  obtain rfl := eq_encode_of_decode h
  cases i <;> rfl

theorem errorCode_mem (e : ErrorCode) : errorCode e ∈ [1#4, 2#4, 3#4, 4#4] := by
  cases e <;> decide

theorem erred_phase (s : State) (i : Instr) (e : ErrorCode) : (s.erred i e).phase = .error :=
  phase_error_iff.mpr (errorCode_ne_zero e)

/-- Settles O14: each effect of an event, and the completion, is one of the moves of rule R22. -/
theorem phaseMovesOnlyAsListed : Obligations.PhaseMovesOnlyAsListed := by
  unfold Obligations.PhaseMovesOnlyAsListed
  intro s t hs h
  obtain ⟨hd, hseq⟩ | ⟨-, -, rfl⟩ | ⟨e, rest, hd, hi, heff⟩ := step_next_cases h
  · obtain ⟨hrun, -⟩ := due_iff.mp hd
    obtain ⟨u, hu, hx⟩ := sequencer_of_inv hs hrun
    obtain rfl := Host.Outcome.next.inj (hx.symm.trans hseq)
    exact .inr (.inr (.inl ⟨hrun, finish_phase_of_run hu hrun, hd, hx, finish_status_of_run hu hrun⟩))
  · exact .inl rfl
  · cases heff with
    | port p => exact .inl rfl
    | reset he =>
      exact .inr (.inr (.inr (.inr
        ⟨resetCore_phase s, hd, inbox_of_eventResets hi he, rfl, rfl, rfl, rfl, rfl, rfl⟩)))
    | store off r v hidle =>
      obtain ⟨hstatus, -⟩ := storeSlot_frame r v (s.tick rest)
      exact .inl (congrArg Status.phase hstatus)
    | command w i t hidle hw hne hx =>
      obtain ⟨c, hc, rfl⟩ | ⟨u, hu, rfl⟩ | ⟨-, rfl⟩ := exec_idle_cases hne hidle hx
      · refine .inr (.inr (.inr (.inl ⟨hidle, erred_phase _ i c, w, rest, errorCode c, hi, errorCode_mem c, ?_, ?_⟩)))
        · constructor
          · intro h4
            obtain rfl := errorCode_injective (e' := .illegalCommand) h4
            exact absurd hc firstError_ne_illegal
          · exact fun hno => absurd hw (hno i)
        · rw [← opcode_of_decode hw]
          rfl
      · exact .inl ((finish_phase_of_run hu (running_phase (s.tick rest) i)).trans hidle.symm)
      · exact .inr (.inl ⟨hidle, running_phase _ i, w, rest, i, hi, hw, hne, rfl⟩)
    | illegal w hidle hw =>
      refine .inr (.inr (.inr (.inl ⟨hidle, rfl, w, rest, 4#4, hi, errorCode_mem .illegalCommand, ?_, rfl⟩)))
      exact ⟨fun _ => hw, fun _ => rfl⟩

/-! ### A running command ends -/

/-- A run begins with a step. -/
theorem run_succ {M : Host.Core} {s t : M.State} (h : M.step s = .next t) (n : Nat) :
    M.run (n + 1) s = M.run n t := by
  rw [Host.Core.run, h]

/-- A run that does not stop has a first step. -/
theorem step_of_run_succ {M : Host.Core} {n : Nat} {s u : M.State} (h : M.run (n + 1) s = .next u) :
    ∃ t, M.step s = .next t ∧ M.run n t = .next u := by
  rw [Host.Core.run] at h
  split at h
  · next t ht => exact ⟨t, ht, h⟩
  · cases h
  · cases h

/-- A run goes on by a step. -/
theorem run_then_step {M : Host.Core} {n : Nat} {s t u : M.State} (h : M.run n s = .next t)
    (hu : M.step t = .next u) : M.run (n + 1) s = .next u := by
  induction n generalizing s with
  | zero =>
    obtain rfl := Host.Outcome.next.inj h
    exact run_succ hu 0
  | succ n ih =>
    obtain ⟨s', hs, hrest⟩ := step_of_run_succ h
    exact (run_succ hs _).trans (ih hrest)

/-- While the host makes only transactions of the interface, a running command comes to the step in which its
completion is due, with nothing but the port changed, unless an event resets the core before (rule R210). -/
theorem run_until_due {k : Nat} {s : State} (hk : s.port.wait ≤ k) (hrun : s.phase = .run)
    (hwf : ∀ e ∈ s.port.inbox, e.wf = true) :
    ∃ n t, n ≤ k ∧ Host.Core.run Sys2Proof.core n s = .next t ∧
      ((∃ p, t = { s with port := p } ∧ t.due = true) ∨
        (t.phase ≠ .run ∧ ∃ e ∈ s.port.inbox, eventResets e = true)) := by
  induction k generalizing s with
  | zero => exact ⟨0, s, le_rfl, rfl, .inl ⟨s.port, rfl, due_iff.mpr ⟨hrun, .inl (Nat.le_zero.mp hk)⟩⟩⟩
  | succ k ih =>
    cases hd : s.due with
    | true => exact ⟨0, s, Nat.zero_le _, rfl, .inl ⟨s.port, rfl, hd⟩⟩
    | false =>
      cases hi : s.port.inbox with
      | nil => exact absurd (hd.symm.trans (due_iff.mpr ⟨hrun, .inr hi⟩)) nofun
      | cons e rest =>
        rw [hi] at hwf
        obtain ⟨t, ht⟩ := perform_of_wf (hwf e List.mem_cons_self) (s.tick rest)
        have hstep : step s = .next t := (step_host hd hi).trans ht
        obtain ⟨p, rfl, hwait, hinbox⟩ | ⟨he, rfl⟩ :=
          effect_not_idle (s := s.tick rest) (by simp [hrun]) (perform_effect ht)
        · have hmem (e' : HostEvent) (he' : e' ∈ p.inbox) : e' ∈ e :: rest := List.mem_cons.mpr (hinbox e' he')
          have hp : p.wait ≤ k := by
            have hwait' : p.wait = s.port.wait - 1 := hwait
            omega
          obtain ⟨n, u, hn, hu, hend⟩ :=
            ih (s := { s.tick rest with port := p }) hp hrun fun e' he' => hwf e' (hmem e' he')
          refine ⟨n + 1, u, by omega, (run_succ hstep n).trans hu, ?_⟩
          obtain hdue | ⟨hend, e', he', hreset⟩ := hend
          · exact .inl hdue
          · exact .inr ⟨hend, e', hmem e' he', hreset⟩
        · exact ⟨1, _, by omega, run_succ hstep 0, .inr ⟨by simp [resetCore_phase], e, List.mem_cons_self, he⟩⟩

/-- Settles O6: the run comes to the completion, which leaves `RUN`, or a reset has left it before. -/
theorem runningCommandEndsInFiniteTime : Obligations.RunningCommandEndsInFiniteTime := by
  unfold Obligations.RunningCommandEndsInFiniteTime
  intro s hs hrun hwf
  obtain ⟨n, t, hn, hrunTo, ⟨p, rfl, hd⟩ | ⟨hend, -⟩⟩ := run_until_due le_rfl hrun hwf
  · obtain ⟨u, hu, hx⟩ := sequencer_of_inv (s := { s with port := p }) ((inv_with_port s p).trans hs) hrun
    refine ⟨n + 1, u.finish, by omega, run_then_step hrunTo ((step_due hd).trans hx), ?_⟩
    simp [finish_phase_of_run hu hrun]
  · exact ⟨n, t, by omega, hrunTo, hend⟩

/-- In `IDLE` a command other than `SRST` whose checks pass completes in some state (rules R94, R95). -/
theorem exists_completesAs {i : Instr} {s : State} (h : s.phase = .idle) (hi : i ≠ .srst)
    (he : firstError (checksOf i) s = none) : ∃ t, CompletesAs i s t := by
  obtain ⟨body, hb, hx⟩ := exec_issue hi
  obtain ⟨u, hok, -⟩ := runningBody_ok hb ((firstError_running s i).trans he)
  have hport := (runningBody_writes hb hok).port
  refine ⟨u.finish, completesAs_of_body (hx s) hb h he fun n => ?_⟩
  calc complete body ((s.running i).setWait n)
      = { u.finish with port := { (s.running i).port with wait := 0 } } := complete_port hb hok _
    _ = u.finish := by rw [← hport]; rfl

/-- Settles O25: no check fails, so the command completes in some state, and the run from the running state comes to
that completion with only the port changed. -/
theorem acceptedCommandRunsToCompletion : Obligations.AcceptedCommandRunsToCompletion := by
  unfold Obligations.AcceptedCommandRunsToCompletion
  intro s i h hi hno
  have he : firstError (checksOf i) s = none := by
    cases hc : firstError (checksOf i) s with
    | none => rfl
    | some e => exact absurd (exec_error hi h hc) (hno e)
  obtain ⟨t, ht⟩ := exists_completesAs h hi he
  refine ⟨t, ht, fun hl hwf => ?_⟩
  obtain ⟨-, hdelayed⟩ := ht
  obtain ⟨-, -, hcompletion⟩ := hdelayed hl
  obtain ⟨n, r, hn, hrunTo, ⟨p, rfl, hd⟩ | ⟨-, e, hmem, hreset⟩⟩ :=
    run_until_due (s := s.running i) le_rfl (running_phase s i) fun e hmem => (hwf e hmem).1
  · obtain ⟨-, hdue⟩ := due_iff.mp hd
    exact ⟨n + 1, { p with wait := 0 }, Nat.succ_le_succ hn, rfl, run_then_step hrunTo (hcompletion p hdue)⟩
  · exact absurd ((hwf e hmem).2.symm.trans hreset) nofun

end Sys2Proof.Machine
end

section
/-! PROOFS. The passphrase (rules R27, R184): the relation of two states that differ in `PASSBUF` alone, kept by every
operation but the hash of the request. -/

namespace Sys2Proof.Machine

/-! ### The relation -/

/-- Two states of the relation have the same fields but for the memory. -/
theorem sameButPassphrase_iff {s t : State} :
    SameButPassphrase s t ↔
      ∃ m, t = { s with mem := m } ∧ ∀ a, ¬ inPassbuf a → Memory.read s.mem a = Memory.read m a := by
  constructor
  · rintro ⟨hstatus, hreq, hwork, henc, hcount, hcfg, hport, hmem⟩
    refine ⟨t.mem, ?_, hmem⟩
    cases s
    cases t
    cases hstatus
    cases hreq
    cases hwork
    cases henc
    cases hcount
    cases hcfg
    cases hport
    rfl
  · rintro ⟨m, rfl, hmem⟩
    exact ⟨rfl, rfl, rfl, rfl, rfl, rfl, rfl, hmem⟩

theorem SameButPassphrase.phase_eq {s t : State} (h : SameButPassphrase s t) : s.phase = t.phase := by
  obtain ⟨hstatus, -⟩ := h
  exact congrArg Status.phase hstatus

/-- An operation that does not look at the memory keeps the relation. -/
theorem SameButPassphrase.map {s t : State} (h : SameButPassphrase s t) {f : State → State}
    (hf : ∀ (s : State) (m : Memory), f { s with mem := m } = { f s with mem := m })
    (hmem : ∀ s, (f s).mem = s.mem) : SameButPassphrase (f s) (f t) := by
  obtain ⟨m, rfl, hread⟩ := sameButPassphrase_iff.mp h
  exact sameButPassphrase_iff.mpr ⟨m, hf s m, fun a ha => by rw [hmem]; exact hread a ha⟩

/-- The same bytes written into two canonical memories: the relation of the bytes outside `PASSBUF` is kept. -/
theorem writeBytes_agree {m n : Memory} (hm : Memory.canonical m = true) (hn : Memory.canonical n = true)
    (h : ∀ a, ¬ inPassbuf a → Memory.read m a = Memory.read n a) (b : Nat) (bs : List Byte) (a : Nat)
    (ha : ¬ inPassbuf a) :
    Memory.read (Memory.writeBytes m b bs) a = Memory.read (Memory.writeBytes n b bs) a := by
  rw [read_writeBytes hm, read_writeBytes hn, h a ha]

theorem inv_canonical {s : State} (h : s.inv = true) : Memory.canonical s.mem = true := (wf_iff.mp (inv_mem h)).1

/-! ### Reads -/

theorem not_inPassbuf_of_lt {a : Nat} (h : a < 0x200) : ¬ inPassbuf a := fun hp => absurd hp.1 (Nat.not_le.mpr h)

/-- The words of the `OTPSTR` window are a matter of its implemented bytes alone (rules R34, R66). -/
theorem slotWord_otpStr_congr {s t : State}
    (h : ∀ k < Config.strMax, Memory.read s.mem (otpBase + k) = Memory.read t.mem (otpBase + k)) (j : Fin 16) :
    slotWord s (.otpStr j) = slotWord t (.otpStr j) := by
  have hbyte (k : Nat) : otpByte s k = otpByte t k := by
    unfold otpByte
    split
    · next hk => exact h k hk
    · rfl
  simp only [slotWord, hbyte]

/-- A host read of a register shows no byte of the passphrase (rule R27). -/
theorem slotWord_agree {s t : State} (h : SameButPassphrase s t) (r : Slot) : slotWord s r = slotWord t r := by
  obtain ⟨m, rfl, hread⟩ := sameButPassphrase_iff.mp h
  cases r with
  | otpStr j =>
    refine slotWord_otpStr_congr (fun k hk => hread _ (not_inPassbuf_of_lt ?_)) j
    simp only [otpBase, Config.strMax] at hk ⊢
    omega
  | seedBuf j =>
    refine readWord_congr fun k hk => hread _ (not_inPassbuf_of_lt ?_)
    have := j.isLt
    simp only [seedBase]
    omega
  | _ => rfl

theorem readSlot_agree {s t : State} (h : SameButPassphrase s t) (r : Slot) :
    SameButPassphrase (readSlot r s) (readSlot r t) := by
  have hword := slotWord_agree h r
  obtain ⟨m, rfl, hread⟩ := sameButPassphrase_iff.mp h
  have hphase : State.phase { s with mem := m } = s.phase := rfl
  unfold readSlot
  rw [hphase, ← hword]
  split
  · exact sameButPassphrase_iff.mpr ⟨m, rfl, hread⟩
  · exact sameButPassphrase_iff.mpr ⟨m, rfl, hread⟩

theorem pollStatus_agree {s t : State} (h : SameButPassphrase s t) :
    SameButPassphrase (pollStatus s) (pollStatus t) :=
  h.map (f := pollStatus) (fun s m => by rw [pollStatus_eq, pollStatus_eq]) fun s => by rw [pollStatus_eq]

/-! ### Writes of registers -/

theorem storeSlot_agree {s t : State} (h : SameButPassphrase s t) (hs : Memory.canonical s.mem = true)
    (ht : Memory.canonical t.mem = true) (r : Slot) (v : Word) :
    SameButPassphrase (storeSlot r v s) (storeSlot r v t) := by
  obtain ⟨m, rfl, hread⟩ := sameButPassphrase_iff.mp h
  cases r with
  | seedBuf j => exact sameButPassphrase_iff.mpr ⟨_, rfl, writeBytes_agree hs ht hread _ _⟩
  | passBuf j => exact sameButPassphrase_iff.mpr ⟨_, rfl, writeBytes_agree hs ht hread _ _⟩
  | _ => exact sameButPassphrase_iff.mpr ⟨m, rfl, hread⟩

/-! ### Commands -/

/-- The pseudocode of a command that hashes no passphrase, on two states of the relation: the same error, or results
of the relation. -/
theorem body_agree {i : Instr} {body : Body} {s t : State} (hb : runningBody (opcode i) = some body)
    (hi : hashesPassphrase i = false) (h : SameButPassphrase s t) (hs : Memory.canonical s.mem = true)
    (ht : Memory.canonical t.mem = true) :
    (∃ u v, body s = .ok u ∧ body t = .ok v ∧ SameButPassphrase u v) ∨
    (∃ e, body s = .error e ∧ body t = .error e) := by
  obtain ⟨m, rfl, hread⟩ := sameButPassphrase_iff.mp h
  cases i with
  | hash0 => cases hi
  | chain => cases hi
  | derive => cases hi
  | srst => cases hb
  | wenc =>
    obtain rfl := Option.some.inj hb
    unfold wencBody
    obtain ⟨str, hstr, hok⟩ | ⟨hstr, herr⟩ := encodeWords_cases s
    · have hok' : encodeWords { s with mem := m } = .ok (State.putOtp { s with mem := m } str) := by
        rw [encodeWords, hstr]
      exact .inl ⟨_, _, hok, hok', sameButPassphrase_iff.mpr ⟨_, rfl, writeBytes_agree hs ht hread _ _⟩⟩
    · exact .inr ⟨_, herr, by rw [encodeWords, hstr]⟩
  | _ =>
    obtain rfl := Option.some.inj hb
    exact .inl ⟨_, _, rfl, rfl, sameButPassphrase_iff.mpr ⟨m, rfl, hread⟩⟩

theorem complete_agree {i : Instr} {body : Body} {s t : State} (hb : runningBody (opcode i) = some body)
    (hi : hashesPassphrase i = false) (h : SameButPassphrase s t) (hs : Memory.canonical s.mem = true)
    (ht : Memory.canonical t.mem = true) : SameButPassphrase (complete body s) (complete body t) := by
  obtain ⟨u, v, hu, hv, huv⟩ | ⟨e, hu, hv⟩ := body_agree hb hi h hs ht
  · rw [complete, complete, hu, hv]
    exact huv.map (f := State.finish) (fun _ _ => rfl) fun _ => rfl
  · rw [complete, complete, hu, hv]
    exact h.map (f := fun s => s.raise e) (fun _ _ => rfl) fun _ => rfl

theorem issue_agree {i : Instr} {body : Body} {s t : State} (hb : runningBody (opcode i) = some body)
    (hi : hashesPassphrase i = false) (h : SameButPassphrase s t) (hs : Memory.canonical s.mem = true)
    (ht : Memory.canonical t.mem = true) : SameButPassphrase (issue i body s) (issue i body t) := by
  obtain ⟨m, rfl, hread⟩ := sameButPassphrase_iff.mp h
  have hphase : State.phase { s with mem := m } = s.phase := rfl
  have hcheck : firstError (checksOf i) { s with mem := m } = firstError (checksOf i) s := firstError_congr rfl rfl
  unfold issue
  rw [hphase, hcheck]
  split
  · split
    · next e _ => exact h.map (f := fun s => (s.examine (opcode i)).raise e) (fun _ _ => rfl) fun _ => rfl
    · unfold launch
      have hport : (State.examine { s with mem := m } (opcode i)).port = (s.examine (opcode i)).port := rfl
      rw [hport]
      split
      · exact complete_agree hb hi
          (h.map (f := fun s => (s.examine (opcode i)).accept.redraw) (fun _ _ => rfl) fun _ => rfl) hs ht
      · exact h.map (f := fun s => (s.examine (opcode i)).accept.redraw.setWait (s.examine (opcode i)).port.latency)
          (fun _ _ => rfl) fun _ => rfl
  · exact h

/-! ### Steps -/

/-- Two outcomes that an observer without the passphrase cannot tell apart, as the statement words it. -/
def OutcomesAgree (o p : Host.Outcome State Fault Refusal) : Prop :=
  (∃ s t, o = .next s ∧ p = .next t ∧ SameButPassphrase s t) ∨ ∃ r, o = .refused r ∧ p = .refused r

theorem SameButPassphrase.next {s t : State} (h : SameButPassphrase s t) : OutcomesAgree (.next s) (.next t) :=
  .inl ⟨s, t, rfl, rfl, h⟩

/-- Of the memory a reset leaves nothing (rule R201). -/
theorem resetCore_agree {s t : State} (h : SameButPassphrase s t) : SameButPassphrase s.resetCore t.resetCore := by
  obtain ⟨m, rfl, -⟩ := sameButPassphrase_iff.mp h
  exact sameButPassphrase_iff.mpr ⟨[], rfl, fun _ _ => rfl⟩

theorem exec_agree {i : Instr} {s t : State} (hi : hashesPassphrase i = false) (h : SameButPassphrase s t)
    (hs : Memory.canonical s.mem = true) (ht : Memory.canonical t.mem = true) :
    OutcomesAgree (exec i s) (exec i t) := by
  by_cases hsrst : i = .srst
  · subst hsrst
    rw [exec_srst, exec_srst]
    exact (resetCore_agree h).next
  · obtain ⟨body, hb, hx⟩ := exec_issue hsrst
    rw [hx, hx]
    exact (issue_agree hb hi h hs ht).next

theorem illegalCommand_agree {s t : State} (h : SameButPassphrase s t) (w : Word) :
    SameButPassphrase (illegalCommand w s) (illegalCommand w t) := by
  unfold illegalCommand
  rw [← h.phase_eq]
  split
  · exact h.map (f := fun s => (s.examine (opcField w)).raise .illegalCommand) (fun _ _ => rfl) fun _ => rfl
  · exact h

theorem writeSlot_agree {s t : State} {r : Slot} {v : Word}
    (hv : r = .cmd → ∀ i, decode v = .ok i → hashesPassphrase i = false) (h : SameButPassphrase s t)
    (hs : Memory.canonical s.mem = true) (ht : Memory.canonical t.mem = true) :
    OutcomesAgree (writeSlot r v s) (writeSlot r v t) := by
  unfold writeSlot
  rw [← h.phase_eq]
  split
  · next hr =>
    unfold cmdWrite
    split
    · next i hi => exact exec_agree (hv hr i hi) h hs ht
    · exact (illegalCommand_agree h v).next
  · split
    · exact (storeSlot_agree h hs ht r v).next
    · exact h.next

/-- An event from outside that issues no command that hashes the passphrase. -/
theorem perform_agree {s t : State} {e : HostEvent}
    (he : ∀ w i, e = .write 4 0x004 w → decode w = .ok i → hashesPassphrase i = false) (h : SameButPassphrase s t)
    (hs : Memory.canonical s.mem = true) (ht : Memory.canonical t.mem = true) :
    OutcomesAgree (perform e s) (perform e t) := by
  cases hwf : e.wf with
  | false =>
    rw [perform_of_not_wf hwf, perform_of_not_wf hwf]
    exact .inr ⟨_, rfl, rfl⟩
  | true =>
    cases e with
    | read bytes off =>
      rw [perform_read hwf, perform_read hwf]
      exact (readSlot_agree h _).next
    | write bytes off v =>
      rw [perform_write hwf, perform_write hwf]
      refine writeSlot_agree (fun hr i hi => ?_) h hs ht
      obtain rfl : bytes = 4 := by
        simp only [HostEvent.wf, transactionOk, Bool.and_eq_true, beq_iff_eq] at hwf
        exact hwf.1.1
      obtain rfl := slotAt_eq_cmd hr
      exact he v i rfl hi
    | poll => exact (pollStatus_agree h).next
    | reset => exact (resetCore_agree h).next

/-- A completion of a command that hashes no passphrase. -/
theorem sequencer_agree {s t : State} (hs : s.inv = true) (ht : t.inv = true) (hrun : s.phase = .run)
    (hi : ∀ i, commandOfOpcode s.status.opc = some i → hashesPassphrase i = false) (h : SameButPassphrase s t) :
    OutcomesAgree (sequencer s) (sequencer t) := by
  obtain ⟨-, -, -, hbusy⟩ := inv_iff.mp hs
  obtain ⟨i, hopc, hne, -⟩ := runningOk_iff.mp (hbusy (phase_run_iff.mp hrun).2)
  obtain ⟨body, hb, -⟩ := exec_issue hne
  have hagree := complete_agree hb (hi i hopc) h (inv_canonical hs) (inv_canonical ht)
  rw [opcode_of_commandOfOpcode hopc] at hb
  obtain ⟨hstatus, -⟩ := h
  rw [sequencer, sequencer, ← hstatus, hb]
  exact hagree.next

/-- Settles O43: the two states take the same branch of the step, and each operation but the hash of the request keeps
the relation. -/
theorem passphraseIsReadByHashingAlone : Obligations.PassphraseIsReadByHashingAlone := by
  unfold Obligations.PassphraseIsReadByHashingAlone
  intro s t hs ht h hno
  change OutcomesAgree (step s) (step t)
  have hsame := h
  obtain ⟨m, rfl, -⟩ := sameButPassphrase_iff.mp h
  have hdue : State.due { s with mem := m } = s.due := rfl
  cases hd : s.due with
  | true =>
    rw [step_due hd, step_due (hdue.trans hd)]
    refine sequencer_agree hs ht (due_iff.mp hd).1 (fun i hopc => ?_) hsame
    exact Bool.eq_false_iff.mpr fun hi => hno (.inl ⟨hd, i, hopc, hi⟩)
  | false =>
    cases hinbox : s.port.inbox with
    | nil =>
      rw [step_quiet hd hinbox, step_quiet (hdue.trans hd) hinbox]
      exact hsame.next
    | cons e rest =>
      rw [step_host hd hinbox, step_host (hdue.trans hd) hinbox]
      have htick := hsame.map (f := fun s => s.tick rest) (fun _ _ => rfl) fun _ => rfl
      refine perform_agree (fun w i he hi => ?_) htick (inv_canonical hs) (inv_canonical ht)
      subst he
      exact Bool.eq_false_iff.mpr fun hx => hno (.inr ⟨hd, w, rest, i, hinbox, hi, hx⟩)

end Sys2Proof.Machine
end

section
/-! PROOFS. The host interface (rules R21, R61 to R71, R99): the register map, the word of a register and its lanes, and
what a read, a write and a `WAIT` do. -/

namespace Sys2Proof.Machine

/-! ### Lanes and bits -/

/-- A lane of a word assembled from bytes is the byte (rules R11, R63). -/
theorem lane_le32 (f : Nat → Byte) (k : Fin 4) : lane (le32 (f 0) (f 1) (f 2) (f 3)) k = f k := by
  match k with
  | 0 => exact lane_le32_zero _ _ _ _
  | 1 => exact lane_le32_one _ _ _ _
  | 2 => exact lane_le32_two _ _ _ _
  | 3 => exact lane_le32_three _ _ _ _

theorem lane_and (a b : Word) (k : Nat) : lane (a &&& b) k = lane a k &&& lane b k := by
  refine BitVec.eq_of_getLsbD_eq fun i hi => ?_
  simp [lane, hi]

theorem bit_getLsbD (b : Bool) (k : Nat) : (bit b).getLsbD k = (b && decide (k = 0)) := by
  cases b
  · simp [bit]
  · simp [bit, BitVec.getLsbD_one]

/-- Every bit of the word read at the offset of `STATUS` (rule R21). -/
theorem status_word_getLsbD (t : Status) {k : Nat} (hk : k < 32) :
    t.word.getLsbD k =
      if k = 0 then t.busy else if k = 1 then t.done else if k < 4 then false
      else if k < 8 then t.err.getLsbD (k - 4) else t.opc.getLsbD (k - 8) := by
  simp only [Status.word, BitVec.getLsbD_or, BitVec.getLsbD_shiftLeft, BitVec.getLsbD_setWidth, bit_getLsbD]
  split_ifs with h0 h1 h4 h8
  · subst h0
    simp
  · subst h1
    simp
  · have h8 : k < 8 := by omega
    simp [h0, h4, h8, show k - 1 ≠ 0 by omega]
  · simp [h0, h4, h8, hk, show k - 1 ≠ 0 by omega, show k - 4 < 32 by omega]
  · simp [h0, h4, h8, hk, show k - 1 ≠ 0 by omega, show k - 8 < 32 by omega,
      BitVec.getLsbD_of_ge t.err (k - 4) (by omega)]

/-- Settles O34: each field by its bits. -/
theorem statusWordLayout : Obligations.StatusWordLayout := by
  unfold Obligations.StatusWordLayout
  intro t
  refine ⟨status_word_getLsbD t (by decide), status_word_getLsbD t (by decide), ?_, ?_, ?_, ?_⟩ <;>
    refine BitVec.eq_of_getLsbD_eq fun k hk => ?_ <;>
    rw [BitVec.getLsbD_extractLsb', status_word_getLsbD t (by omega)]
  · simp [hk, show 2 + k ≠ 1 by omega, show 2 + k < 4 by omega]
  · simp [hk, show 4 + k ≠ 1 by omega, show 4 + k < 8 by omega]
  · simp [hk, show 8 + k ≠ 1 by omega, show ¬ 8 + k < 4 by omega]
  · simp [show 16 + k ≠ 1 by omega, show ¬ 16 + k < 4 by omega, show ¬ 16 + k < 8 by omega,
      BitVec.getLsbD_of_ge t.opc (16 + k - 8) (by omega)]

/-- `BUSY` is the bit that `WAIT` looks at (rules R21, R99). -/
theorem status_word_busy (t : Status) : t.word.extractLsb' 0 1 = 1#1 ↔ t.busy = true := by
  have hbit : (t.word.extractLsb' 0 1).getLsbD 0 = t.busy := by
    rw [BitVec.getLsbD_extractLsb', status_word_getLsbD t (by decide)]
    rfl
  constructor
  · intro h
    rw [← hbit, h]
    rfl
  · intro h
    refine BitVec.eq_of_getLsbD_eq fun k hk => ?_
    obtain rfl : k = 0 := by omega
    rw [hbit, h]
    rfl

/-! ### The register map -/

/-- The aligned offsets of an array of `n` words. -/
theorem exists_word_of_range {lo n off : Nat} (hlo : lo % 4 = 0) (ha : off % 4 = 0) (h : lo ≤ off)
    (h' : off < lo + 4 * n) : ∃ j : Fin n, off = lo + 4 * j.val :=
  ⟨⟨(off - lo) / 4, by omega⟩, by dsimp only; omega⟩

theorem slotAt_digest (j : Fin 4) : slotAt (0x030 + 4 * j.val) = .digest j := slotAt_slotOffset (.digest j)
theorem slotAt_fold (j : Fin 2) : slotAt (0x050 + 4 * j.val) = .fold j := slotAt_slotOffset (.fold j)
theorem slotAt_otpStr (j : Fin 16) : slotAt (0x080 + 4 * j.val) = .otpStr j := slotAt_slotOffset (.otpStr j)
theorem slotAt_seedBuf (j : Fin 64) : slotAt (0x100 + 4 * j.val) = .seedBuf j := slotAt_slotOffset (.seedBuf j)
theorem slotAt_passBuf (j : Fin 64) : slotAt (0x200 + 4 * j.val) = .passBuf j := slotAt_slotOffset (.passBuf j)

/-- The offsets of the single words. -/
theorem registerMap_offsets : ∀ p ∈ registerMap, p.1 ≤ 0x020 ∨ (0x030 ≤ p.1 ∧ p.1 ≤ 0x07C) := by decide

/-- The offsets that rule R61's table leaves out are reserved (rule R66). -/
theorem slotAt_reserved {off : Nat}
    (h : (0x024 ≤ off ∧ off ≤ 0x02C) ∨ (0x0C0 ≤ off ∧ off ≤ 0x0FC) ∨ (0x300 ≤ off ∧ off ≤ 0xFFC)) :
    slotAt off = .reserved := by
  have hnone : registerMap.lookup off = none := by
    refine List.lookup_eq_none_iff.mpr fun p hp => ?_
    have := registerMap_offsets p hp
    rw [bne_iff_ne]
    omega
  rw [slotAt, hnone]
  dsimp only
  rw [if_neg (by omega), if_neg (by omega), if_neg (by omega)]

/-! ### The word of a register -/

theorem lane_digestWord (d : Vector Byte 16) (j k : Fin 4) :
    lane (digestWord d j) k = d[4 * j.val + k.val] := by
  fin_cases k <;> simp [digestWord]

theorem lane_foldWord (f : Vector Byte 8) (j : Fin 2) (k : Fin 4) :
    lane (foldWord f j) k = f[4 * j.val + k.val] := by
  fin_cases k <;> simp [foldWord]

theorem lane_readWord (m : Memory) (a : Nat) (k : Fin 4) : lane (Memory.readWord m a) k = Memory.read m (a + k) :=
  lane_le32 (fun i => Memory.read m (a + i)) k

theorem lane_otpStr (s : State) (j : Fin 16) (k : Fin 4) :
    lane (slotWord s (.otpStr j)) k = otpByte s (4 * j.val + k.val) :=
  lane_le32 (fun i => otpByte s (4 * j.val + i)) k

/-- Settles O33: the map gives the register, and the register its word. -/
theorem registerMapAsListed : Obligations.RegisterMapAsListed := by
  unfold Obligations.RegisterMapAsListed
  intro s
  refine ⟨⟨rfl, rfl, rfl, rfl, rfl, rfl, rfl, rfl, rfl⟩, ⟨rfl, rfl, rfl, rfl, rfl, rfl, rfl, rfl⟩,
    ⟨rfl, rfl, rfl, rfl, rfl, rfl⟩, fun j k => ?_, fun j k => ?_, fun j k => ?_, fun j => ?_, fun j k => ?_⟩
  · rw [slotAt_digest]
    exact lane_digestWord _ j k
  · rw [slotAt_fold]
    exact lane_foldWord _ j k
  · rw [slotAt_seedBuf]
    exact lane_readWord _ _ k
  · rw [slotAt_passBuf]
    rfl
  · rw [slotAt_otpStr, lane_otpStr, otpByte, ← Nat.add_assoc]
    rfl

/-! ### A transaction on a register -/

theorem step_write_slot {s : State} {r : Slot} {v : Word} {rest : List HostEvent} (hd : s.due = false)
    (hi : s.port.inbox = .write 4 (slotOffset r) v :: rest) : step s = writeSlot r v (s.tick rest) := by
  rw [step_host hd hi, perform_write (transactionOk_slotOffset r), slotAt_slotOffset]

/-- In `IDLE` a write to a register other than `CMD` stores it (rule R65). -/
theorem writeSlot_idle {r : Slot} {v : Word} {s : State} (hr : r ≠ .cmd) (h : s.phase = .idle) :
    writeSlot r v s = .next (storeSlot r v s) := by
  rw [writeSlot, if_neg hr, if_pos h]

/-- A register that stores nothing keeps the state in every phase (rules R65, R69). -/
theorem writeSlot_of_store_eq {r : Slot} {v : Word} {s : State} (hr : r ≠ .cmd) (h : storeSlot r v s = s) :
    writeSlot r v s = .next s := by
  rw [writeSlot, if_neg hr, h, ite_self]

/-- A write to a read-only register stores nothing (rule R67). -/
theorem storeSlot_of_ro {r : Slot} (h : slotAccess r = .ro) (v : Word) (s : State) : storeSlot r v s = s := by
  cases r with
  | id | status | nfold | nrehash | parity | otpLen | idx _ | otpStr _ => rfl
  | _ => cases h

/-- Settles O41: a read-only register is not `CMD` and stores nothing. -/
theorem writesToReadOnlyRegistersAreIgnored : Obligations.WritesToReadOnlyRegistersAreIgnored := by
  unfold Obligations.WritesToReadOnlyRegistersAreIgnored
  intro s r v rest hd hro hi
  have hr : r ≠ .cmd := by
    rintro rfl
    cases hro
  rw [step_write_slot hd hi, writeSlot_of_store_eq hr (storeSlot_of_ro hro v _)]

/-- Settles O42: `WAIT` gives the word of `STATUS`, and its bit 0 is `BUSY`. -/
theorem waitPollsStatus : Obligations.WaitPollsStatus := by
  unfold Obligations.WaitPollsStatus
  intro s rest hd hi
  rw [step_host hd hi, perform, pollStatus_eq, State.tick_status]
  simp only [status_word_busy]
  split <;> rfl

/-! ### Reads in `RUN` and of reserved offsets -/

/-- The word a read gives in `RUN`: the register's own, or for a working or result register the next free value in the
bits that hold one (rule R70). -/
def runningWord (r : Slot) (s : State) : Word :=
  if stagedBits r = 0#32 then slotWord s r else Config.freeRead s.port.draws &&& stagedBits r

theorem runningWord_of_defined {r : Slot} (h : stagedBits r = 0#32) (s : State) : runningWord r s = slotWord s r :=
  if_pos h

theorem runningWord_of_free {r : Slot} (h : stagedBits r = 0xFFFFFFFF#32) (s : State) :
    runningWord r s = Config.freeRead s.port.draws := by
  have hne : stagedBits r ≠ 0#32 := by
    rw [h]
    decide
  rw [runningWord, if_neg hne, h]
  exact BitVec.and_allOnes

/-- A read in `RUN` gives that word and changes the port alone (rules R64, R70). -/
theorem readSlot_run {r : Slot} {s : State} (h : s.phase = .run) :
    ∃ draws, readSlot r s =
      { s with port := { s.port with reads := runningWord r s :: s.port.reads, draws := draws } } := by
  unfold readSlot runningWord
  by_cases hr : stagedBits r = 0#32
  · rw [if_neg fun hc => hc.2 hr, if_pos hr]
    exact ⟨s.port.draws, rfl⟩
  · rw [if_pos ⟨h, hr⟩, if_neg hr]
    exact ⟨s.port.draws + 1, rfl⟩

theorem stagedBits_staged_words : ∀ j : Fin 27, stagedBits (slotAt (0x030 + 4 * j.val)) = 0xFFFFFFFF#32 := by
  decide

/-- Settles O36: by the range in which the offset lies. -/
theorem readWhileRunning : Obligations.ReadWhileRunning := by
  unfold Obligations.ReadWhileRunning
  intro s off rest hrun hd hi ha hw
  obtain ⟨draws, hread⟩ := readSlot_run (r := slotAt off) (s := s.tick rest) hrun
  refine ⟨runningWord (slotAt off) (s.tick rest), _, (step_read hd hi ha hw).trans (congrArg _ hread), rfl, rfl, rfl,
    rfl, rfl, rfl, rfl, rfl, rfl, ?_, ?_, ?_, ?_, ?_⟩
  · rintro rfl
    exact runningWord_of_defined rfl _
  · rintro rfl
    exact runningWord_of_defined rfl _
  · intro hoff
    rw [← slotWord_tick s rest]
    refine runningWord_of_defined ?_ _
    obtain hoff | ⟨hlo, hhi⟩ := hoff
    · simp only [List.mem_cons, List.not_mem_nil, or_false] at hoff
      obtain rfl | rfl | rfl | rfl := hoff <;> rfl
    · obtain ⟨j, rfl⟩ := exists_word_of_range (n := 64) rfl ha hlo (by omega)
      rw [slotAt_seedBuf]
      rfl
  · rintro (rfl | ⟨hlo, hhi⟩)
    · exact runningWord_of_defined rfl _
    · obtain ⟨j, rfl⟩ := exists_word_of_range (n := 64) rfl ha hlo (by omega)
      rw [slotAt_passBuf]
      exact runningWord_of_defined rfl _
  · rintro (⟨hlo, hhi⟩ | ⟨hlo, hhi⟩)
    · obtain rfl | rfl : off = 0x01C ∨ off = 0x020 := by omega
      · exact runningWord_of_free rfl _
      · exact runningWord_of_free rfl _
    · obtain ⟨j, rfl⟩ := exists_word_of_range (n := 27) rfl ha hlo (by omega)
      exact runningWord_of_free (stagedBits_staged_words j) _

/-- No free value shows in the bytes of the `OTPSTR` window that hold nothing (rule R66, log entry 6). -/
theorem lane_stagedBits_otpStr :
    ∀ (j : Fin 16) (k : Fin 4), 29 ≤ 4 * j.val + k.val → lane (stagedBits (.otpStr j)) k = 0#8 := by
  decide

theorem lane_slotWord_otpStr_above (s : State) {j : Fin 16} {k : Fin 4} (h : 29 ≤ 4 * j.val + k.val) :
    lane (slotWord s (.otpStr j)) k = 0#8 :=
  (lane_otpStr s j k).trans (if_neg (Nat.not_lt.mpr h))

/-- A read of a word of the `OTPSTR` window gives a word whose bytes at index 29 and above are zero, in every phase
(rule R66). -/
theorem readSlot_otpStr (j : Fin 16) (s : State) :
    ∃ v, (readSlot (.otpStr j) s).port.reads = v :: s.port.reads ∧
      ∀ k : Fin 4, 29 ≤ 4 * j.val + k.val → lane v k = 0#8 := by
  obtain ⟨-, -, h⟩ | ⟨-, h⟩ := readSlot_cases (.otpStr j) s
  · rw [h]
    refine ⟨_, rfl, fun k hk => ?_⟩
    rw [lane_and, lane_stagedBits_otpStr j k hk, BitVec.and_zero]
  · rw [h]
    exact ⟨_, rfl, fun k hk => lane_slotWord_otpStr_above s hk⟩

/-- Settles O37: such an offset has no register, or is a word of the `OTPSTR` window. -/
theorem reservedOffsetsReadAsZero : Obligations.ReservedOffsetsReadAsZero := by
  unfold Obligations.ReservedOffsetsReadAsZero
  intro s off rest hd ha
  constructor
  · intro hoff
    have hw : off ≤ 0xFFC := by omega
    have hr : slotAt off = .reserved := slotAt_reserved hoff
    constructor
    · intro hi
      refine ⟨_, ?_, rfl⟩
      rw [step_read hd hi ha hw, hr]
      exact congrArg Host.Outcome.next (if_neg fun hc => hc.2 rfl)
    · intro v hi
      rw [step_write hd hi ha hw, hr]
      exact writeSlot_of_store_eq nofun rfl
  · intro hlo hhi
    obtain ⟨j, rfl⟩ := exists_word_of_range (lo := 0x080) (n := 16) rfl ha (by omega) (by omega)
    have hw : 0x080 + 4 * j.val ≤ 0xFFC := by omega
    constructor
    · intro hi
      obtain ⟨v, hv, hzero⟩ := readSlot_otpStr j (s.tick rest)
      refine ⟨_, v, step_read hd hi ha hw, ?_, fun k hk => hzero k (by omega)⟩
      rw [slotAt_otpStr]
      exact hv
    · intro v hi
      rw [step_write hd hi ha hw, slotAt_otpStr]
      exact writeSlot_of_store_eq nofun rfl

/-! ### Writes in `IDLE` -/

/-- A word of `DIGEST` after a host write to one of its words (rule R65). -/
theorem digestWord_setLanes (d : Vector Byte 16) (j i : Fin 4) (v : Word) :
    digestWord (setLanes d (4 * j.val) v) i = if i = j then v else digestWord d i := by
  simp only [digestWord, setLanes_getElem]
  by_cases h : i = j
  · subst h
    simp
  · have hv : i.val ≠ j.val := fun he => h (Fin.ext he)
    rw [if_neg h, if_neg (by omega), if_neg (by omega), if_neg (by omega), if_neg (by omega)]

/-- A word of `FOLD` after a host write to one of its words (rule R65). -/
theorem foldWord_setLanes (f : Vector Byte 8) (j i : Fin 2) (v : Word) :
    foldWord (setLanes f (4 * j.val) v) i = if i = j then v else foldWord f i := by
  simp only [foldWord, setLanes_getElem]
  by_cases h : i = j
  · subst h
    simp
  · have hv : i.val ≠ j.val := fun he => h (Fin.ext he)
    rw [if_neg h, if_neg (by omega), if_neg (by omega), if_neg (by omega), if_neg (by omega)]

/-- A read-write register reads back as written (rules R65, R68). -/
theorem slotWord_storeSlot_self {r : Slot} {s : State} (hm : Memory.canonical s.mem = true)
    (hr : slotAccess r = .rw) (v : Word) : slotWord (storeSlot r v s) r = v := by
  cases r with
  | digest j => exact (digestWord_setLanes _ j j v).trans (if_pos rfl)
  | fold j => exact (foldWord_setLanes _ j j v).trans (if_pos rfl)
  | valueLo => exact BitVec.extractLsb'_append_eq_right
  | valueHi => exact BitVec.extractLsb'_append_eq_left
  | seedBuf j => exact readWord_writeBytes hm _ v
  | alg | seq | seedLen | passLen | aa | bb | cc | dd => rfl
  | _ => cases hr

/-- A word written into a buffer leaves the bytes outside its four as they are (rule R65). -/
theorem read_writeWord_outside {m : Memory} (hm : Memory.canonical m = true) {a x : Nat} {v : Word}
    (h : ¬ (a ≤ x ∧ x < a + 4)) : Memory.read (Memory.writeBytes m a (lebytes4 v)) x = Memory.read m x := by
  rw [read_writeBytes hm, lebytes4_length, if_neg h]

/-- A write changes what no other register reads as (rule R65). -/
theorem slotWord_storeSlot_ne {r q : Slot} {s : State} (hm : Memory.canonical s.mem = true)
    (hr : slotAccess r = .rw) (h : q ≠ r) (v : Word) : slotWord (storeSlot r v s) q = slotWord s q := by
  cases r with
  | digest j =>
    cases q with
    | digest i => exact (digestWord_setLanes _ j i v).trans (if_neg fun hij => h (congrArg Slot.digest hij))
    | _ => simp only [storeSlot, slotWord, otpByte]
  | fold j =>
    cases q with
    | fold i => exact (foldWord_setLanes _ j i v).trans (if_neg fun hij => h (congrArg Slot.fold hij))
    | _ => simp only [storeSlot, slotWord, otpByte]
  | valueLo =>
    cases q with
    | valueLo => exact absurd rfl h
    | valueHi => exact BitVec.extractLsb'_append_eq_left
    | _ => simp only [storeSlot, slotWord, otpByte]
  | valueHi =>
    cases q with
    | valueHi => exact absurd rfl h
    | valueLo => exact BitVec.extractLsb'_append_eq_right
    | _ => simp only [storeSlot, slotWord, otpByte]
  | seedBuf j =>
    cases q with
    | seedBuf i =>
      have hij : i.val ≠ j.val := fun hij => h (congrArg Slot.seedBuf (Fin.ext hij))
      exact readWord_congr fun k hk => read_writeWord_outside hm (by omega)
    | otpStr i =>
      refine slotWord_otpStr_congr (fun k hk => read_writeWord_outside hm ?_) i
      simp only [otpBase, Config.strMax, seedBase] at hk ⊢
      omega
    | _ => rfl
  | alg | seq | seedLen | passLen | aa | bb | cc | dd =>
    cases q <;> first | exact absurd rfl h | simp only [storeSlot, slotWord, otpByte]
  | _ => cases hr

/-- A write to a read-write register is no write to `PASSBUF`, which the host cannot read (rules R61, R65). -/
theorem read_storeSlot_passbuf {r : Slot} {s : State} (hm : Memory.canonical s.mem = true)
    (hr : slotAccess r = .rw) (v : Word) {a : Nat} (ha : 0x200 ≤ a) :
    Memory.read (storeSlot r v s).mem a = Memory.read s.mem a := by
  cases r with
  | seedBuf j =>
    refine read_writeWord_outside hm ?_
    simp only [seedBase]
    omega
  | passBuf j => cases hr
  | _ => rfl

/-- Settles O38: the register is stored, and the step leaves what `storeSlot` leaves. -/
theorem writeStoresExactlyThatRegister : Obligations.WriteStoresExactlyThatRegister := by
  unfold Obligations.WriteStoresExactlyThatRegister
  intro s r v rest hwf hidle hr hi
  obtain ⟨hm, -⟩ := wf_iff.mp hwf
  have hcmd : r ≠ .cmd := by
    rintro rfl
    cases hr
  obtain ⟨hstatus, henc, hcount, hcfg, -⟩ := storeSlot_frame r v (s.tick rest)
  refine ⟨storeSlot r v (s.tick rest), ?_, slotWord_storeSlot_self (s := s.tick rest) hm hr v, fun q hq => ?_,
    hstatus, henc, hcount, hcfg, fun a ha _ => read_storeSlot_passbuf (s := s.tick rest) hm hr v ha⟩
  · exact (step_write_slot (due_eq_false_of_not_run (by simp [hidle])) hi).trans (writeSlot_idle hcmd hidle)
  · rw [slotWord_storeSlot_ne (s := s.tick rest) hm hr hq v, slotWord_tick]

/-- Settles O39: the four lanes are the four bytes written. -/
theorem writeToPassbufStoresFourBytes : Obligations.WriteToPassbufStoresFourBytes := by
  unfold Obligations.WriteToPassbufStoresFourBytes
  intro s j v rest hwf hidle hi
  obtain ⟨hm, -⟩ := wf_iff.mp hwf
  have hstep : step s = writeSlot (.passBuf j) v (s.tick rest) :=
    step_write_slot (r := .passBuf j) (due_eq_false_of_not_run (by simp [hidle])) hi
  refine ⟨_, hstep.trans (writeSlot_idle nofun hidle), fun k => ?_, fun a ha => read_writeWord_outside hm ha⟩
  have hword := lane_readWord (Memory.writeBytes s.mem (passBase + 4 * j.val) (lebytes4 v)) (passBase + 4 * j.val) k
  rw [readWord_writeBytes hm] at hword
  exact hword.symm

end Sys2Proof.Machine
end

section
/-! PROOFS. The pure functions (rules R92, R121 to R124, R140 to R151): closed forms, bijections, and the strings of a
dictionary. -/

namespace Sys2Proof.Machine

/-! ### Command words -/

/-- A command word is read the same in the opcode table's numbering of its bits (rules R90, R98). -/
theorem decodeTableWord_toNat {w : Word} {i : Instr} (h : decode w = .ok i) :
    decodeTableWord 32 w.toNat = some i := by
  have hw : w.toNat % 2 ^ 32 = w.toNat := Nat.mod_eq_of_lt w.isLt
  rw [decodeTableWord, hw, if_pos w.isLt, BitVec.ofNat_toNat, BitVec.setWidth_eq, h]

/-- Settles O2: the round trip of the word, in both numberings. -/
theorem decodeEncodeRoundTrip : Obligations.DecodeEncodeRoundTrip := by
  unfold Obligations.DecodeEncodeRoundTrip
  exact fun i _ => ⟨decode_encode i, decodeTableWord_toNat (decode_encode i)⟩

/-- Settles O3: each word is evaluated. -/
theorem sampleWordsDecode : Obligations.SampleWordsDecode := by
  unfold Obligations.SampleWordsDecode
  exact ⟨decode_encode .derive, decode_encode .srst, decode_encode .fold, by decide, by decide, by decide, by decide⟩

/-! ### `Extract` and the fold -/

theorem extract_eq_le32 (d : Vector Byte 16) :
    extract d =
      { aa := le32 d[0] d[1] d[2] d[3], bb := le32 d[4] d[5] d[6] d[7]
        cc := le32 d[8] d[9] d[10] d[11], dd := le32 d[12] d[13] d[14] d[15] } :=
  extract_eq_digestWords d

theorem lebytes4_le32 (a b c d : Byte) : lebytes4 (le32 a b c d) = [a, b, c, d] := by
  simp [lebytes4]

theorem toList_eq_sixteenBytes (d : Vector Byte 16) :
    d.toList = [d[0], d[1], d[2], d[3], d[4], d[5], d[6], d[7], d[8], d[9], d[10], d[11], d[12], d[13], d[14],
      d[15]] := by
  refine List.ext_getElem d.length_toList fun k hk _ => ?_
  rw [Vector.length_toList] at hk
  interval_cases k <;> rfl

/-- The digest that four registers are extracted from: their bytes, least significant first (rule R121). -/
def digestOf (g : Regs) : Vector Byte 16 :=
  #v[lane g.aa 0, lane g.aa 1, lane g.aa 2, lane g.aa 3, lane g.bb 0, lane g.bb 1, lane g.bb 2, lane g.bb 3,
    lane g.cc 0, lane g.cc 1, lane g.cc 2, lane g.cc 3, lane g.dd 0, lane g.dd 1, lane g.dd 2, lane g.dd 3]

theorem extract_digestOf (g : Regs) : extract (digestOf g) = g := by
  simp [extract_eq_le32, digestOf]

/-- Settles O44: each register is a little-endian group of the digest, which its lanes give back. -/
theorem extractReadsLittleEndianGroups : Obligations.ExtractReadsLittleEndianGroups := by
  unfold Obligations.ExtractReadsLittleEndianGroups
  refine ⟨fun d => ⟨extract_eq_le32 d, ?_⟩, fun g => ⟨digestOf g, extract_digestOf g⟩⟩
  simp only [extract_eq_le32, lebytes4_le32, toList_eq_sixteenBytes, List.cons_append, List.nil_append]

/-- Settles O45: byte `j` of the fold is a lane of an xor, which is the xor of the lanes of two groups. -/
theorem foldOfExtractIsHalfXorHalf : Obligations.FoldOfExtractIsHalfXorHalf := by
  unfold Obligations.FoldOfExtractIsHalfXorHalf
  intro d j
  fin_cases j <;> simp [foldF, extract_eq_le32, lane_xor]

/-! ### `Enc64` -/

/-- A byte moved up inside a word is the byte moved up inside a wider one. -/
theorem setWidth_shiftLeft_byte (b : Byte) {n : Nat} (hn : n ≤ 24) :
    ((b.setWidth 32 <<< n : Word).setWidth 64) = b.setWidth 64 <<< n := by
  refine BitVec.eq_of_getLsbD_eq fun k hk => ?_
  simp only [BitVec.getLsbD_setWidth, BitVec.getLsbD_shiftLeft]
  by_cases h : k - n < 8
  · simp [hk, show k < 32 by omega, show k - n < 32 by omega, show k - n < 64 by omega]
  · simp [BitVec.getLsbD_of_ge b (k - n) (by omega)]

theorem append_eq_shiftLeft_or (x y : Word) :
    (x ++ y : BitVec 64) = x.setWidth 64 <<< 32 ||| y.setWidth 64 := by
  refine BitVec.eq_of_getLsbD_eq fun k hk => ?_
  rw [BitVec.getLsbD_append, BitVec.getLsbD_or, BitVec.getLsbD_shiftLeft, BitVec.getLsbD_setWidth,
    BitVec.getLsbD_setWidth]
  by_cases h : k < 32
  · simp [hk, h]
  · simp [hk, h, show k - 32 < 64 by omega, BitVec.getLsbD_of_ge y k (by omega)]

/-- The number of a fold is two big-endian words side by side (rules R140, R142). -/
theorem enc64_eq_append (f : Vector Byte 8) :
    enc64 f = be32 f[0] f[1] f[2] f[3] ++ be32 f[4] f[5] f[6] f[7] := by
  have hwide (a b c d : Byte) : (be32 a b c d).setWidth 64 =
      a.setWidth 64 <<< 24 ||| b.setWidth 64 <<< 16 ||| c.setWidth 64 <<< 8 ||| d.setWidth 64 := by
    have hd : ((d.setWidth 32 : Word).setWidth 64) = d.setWidth 64 := by
      simpa only [BitVec.shiftLeft_zero] using setWidth_shiftLeft_byte d (Nat.zero_le 24)
    simp only [be32, BitVec.setWidth_or, setWidth_shiftLeft_byte _ (show 24 ≤ 24 by decide),
      setWidth_shiftLeft_byte _ (show 16 ≤ 24 by decide), setWidth_shiftLeft_byte _ (show 8 ≤ 24 by decide), hd]
  rw [longEncoderIsBigEndian f, append_eq_shiftLeft_or, hwide, hwide]
  simp only [BitVec.shiftLeft_or_distrib, ← BitVec.shiftLeft_add, Nat.reduceAdd, BitVec.or_assoc]

theorem be32_lanes_reversed (v : Word) : be32 (lane v 3) (lane v 2) (lane v 1) (lane v 0) = v := by
  rw [be32_eq_le32, le32_lanes]

theorem be32_injective {a b c d a' b' c' d' : Byte} (h : be32 a b c d = be32 a' b' c' d') :
    a = a' ∧ b = b' ∧ c = c' ∧ d = d' := by
  rw [be32_eq_le32, be32_eq_le32] at h
  exact ⟨by simpa using congrArg (lane · 3) h, by simpa using congrArg (lane · 2) h,
    by simpa using congrArg (lane · 1) h, by simpa using congrArg (lane · 0) h⟩

theorem enc64_high (f : Vector Byte 8) : (enc64 f).extractLsb' 32 32 = be32 f[0] f[1] f[2] f[3] := by
  rw [enc64_eq_append]
  exact BitVec.extractLsb'_append_eq_left

theorem enc64_low (f : Vector Byte 8) : (enc64 f).extractLsb' 0 32 = be32 f[4] f[5] f[6] f[7] := by
  rw [enc64_eq_append]
  exact BitVec.extractLsb'_append_eq_right

theorem enc64_injective {f f' : Vector Byte 8} (h : enc64 f = enc64 f') : f = f' := by
  obtain ⟨h0, h1, h2, h3⟩ := be32_injective ((enc64_high f).symm.trans ((congrArg _ h).trans (enc64_high f')))
  obtain ⟨h4, h5, h6, h7⟩ := be32_injective ((enc64_low f).symm.trans ((congrArg _ h).trans (enc64_low f')))
  refine Vector.ext fun k hk => ?_
  interval_cases k <;> assumption

/-- The fold whose number is a given value: its bytes, most significant first (rule R143). -/
def foldOf (v : BitVec 64) : Vector Byte 8 :=
  let hi : Word := v.extractLsb' 32 32
  let lo : Word := v.extractLsb' 0 32
  #v[lane hi 3, lane hi 2, lane hi 1, lane hi 0, lane lo 3, lane lo 2, lane lo 1, lane lo 0]

theorem enc64_foldOf (v : BitVec 64) : enc64 (foldOf v) = v := by
  have h : enc64 (foldOf v) = (v.extractLsb' 32 32 : Word) ++ (v.extractLsb' 0 32 : Word) :=
    (enc64_eq_append _).trans (congrArg₂ (· ++ ·) (be32_lanes_reversed _) (be32_lanes_reversed _))
  rw [h]
  exact (BitVec.extractLsb'_append_extractLsb'_eq_extractLsb' rfl).trans BitVec.extractLsb'_eq_self

/-- Settles O47: the halves are big-endian words of the fold's bytes, and a number has the bytes of one fold. -/
theorem valueIsTheByteSwapOfTheFold : Obligations.ValueIsTheByteSwapOfTheFold := by
  unfold Obligations.ValueIsTheByteSwapOfTheFold
  exact ⟨fun g => ⟨enc64_high (foldF g), enc64_low (foldF g)⟩, fun _ _ => enc64_injective,
    fun v => ⟨foldOf v, enc64_foldOf v⟩⟩

/-! ### The parity -/

/-- A two-bit group counts its even bit once and its odd bit twice (rules R145, R146). -/
theorem parityGroup_eq (v : BitVec 64) (k : Nat) :
    parityGroup v k = (v.getLsbD (2 * k)).toNat + 2 * (v.getLsbD (2 * k + 1)).toNat := by
  have hmask (x : Nat) : x &&& 3 = x % 4 := Nat.and_two_pow_sub_one_eq_mod x 2
  have hgroup : parityGroup v k = v.toNat / 2 ^ (2 * k) % 4 := by
    rw [parityGroup, BitVec.toNat_and, BitVec.toNat_ushiftRight, Nat.shiftRight_eq_div_pow]
    exact hmask _
  rw [hgroup, BitVec.getLsbD, BitVec.getLsbD, Nat.toNat_testBit, Nat.toNat_testBit, Nat.pow_succ,
    ← Nat.div_div_eq_div_mul]
  omega

/-- A sum of such groups, by the two counts of bits. -/
theorem foldl_groups_eq (p q : Nat → Bool) (ks : List Nat) (s : Nat) :
    ks.foldl (fun s k => s + ((p k).toNat + 2 * (q k).toNat)) s = s + (ks.countP p + 2 * ks.countP q) := by
  induction ks generalizing s with
  | nil => rfl
  | cons k ks ih =>
    rw [List.foldl_cons, ih, List.countP_cons, List.countP_cons]
    cases p k <;> cases q k <;> simp <;> omega

theorem paritySum_eq (v : BitVec 64) :
    paritySum v = (List.range 32).countP (fun k => v.getLsbD (2 * k)) +
      2 * (List.range 32).countP (fun k => v.getLsbD (2 * k + 1)) := by
  simp only [paritySum, parityGroup_eq]
  rw [foldl_groups_eq, Nat.zero_add]

theorem parity_toNat (v : BitVec 64) : (parity v).toNat = paritySum v % 4 := by
  have hmask : paritySum v &&& 3 = paritySum v % 4 := Nat.and_two_pow_sub_one_eq_mod _ 2
  rw [parity, hmask, BitVec.toNat_ofNat, Nat.mod_mod]

/-- Settles O48: the sum of the groups is the weighted count, and there are 32 groups. -/
theorem parityCountsEvenAndOddBits : Obligations.ParityCountsEvenAndOddBits := by
  unfold Obligations.ParityCountsEvenAndOddBits
  intro v
  refine ⟨?_, by rw [parity_toNat, paritySum_eq]⟩
  have hlen (p : Nat → Bool) : (List.range 32).countP p ≤ 32 := List.countP_le_length
  rw [paritySum_eq]
  have he := hlen fun k => v.getLsbD (2 * k)
  have ho := hlen fun k => v.getLsbD (2 * k + 1)
  omega

/-! ### The indices -/

/-- A group of bits shifted back to its place holds those bits of the value and no other (rule R149). -/
theorem group_in_place_getLsbD (v : BitVec 64) {lo n k : Nat} (hk : k < 64) :
    ((v.extractLsb' lo n).setWidth 64 <<< lo).getLsbD k = (decide (lo ≤ k ∧ k < lo + n) && v.getLsbD k) := by
  rw [BitVec.getLsbD_shiftLeft, BitVec.getLsbD_setWidth, BitVec.getLsbD_extractLsb']
  by_cases h : lo ≤ k
  · have hin : k - lo < n ↔ k < lo + n := by omega
    simp [h, hk, hin, show k - lo < 64 by omega, show lo + (k - lo) = k by omega, Nat.not_lt.mpr h]
  · simp [h, Nat.lt_of_not_le h]

/-- The sixth index shifted back: the parity leaves, the nine bits stay (rules R148, R149). -/
theorem checksum_in_place_getLsbD (v : BitVec 64) (p : BitVec 2) {k : Nat} (hk : k < 64) :
    ((v.extractLsb' 0 9 ++ p).setWidth 64 >>> 2).getLsbD k = (decide (k < 9) && v.getLsbD k) := by
  rw [BitVec.getLsbD_ushiftRight, BitVec.getLsbD_setWidth, BitVec.getLsbD_append, BitVec.getLsbD_extractLsb',
    if_neg (by omega), Nat.add_sub_cancel_left, Nat.zero_add]
  by_cases h : k < 9
  · simp [h, show 2 + k < 64 by omega]
  · simp [h]

/-- Settles O50: the six groups cover the bits of the value, and the sixth index ends with the parity. -/
theorem indicesCoverEveryBit : Obligations.IndicesCoverEveryBit := by
  unfold Obligations.IndicesCoverEveryBit
  intro v
  rw [indicesAreTheBitsOfTheValue v]
  refine ⟨BitVec.eq_of_getLsbD_eq fun k hk => ?_, BitVec.extractLsb'_append_eq_right⟩
  simp only [BitVec.getLsbD_or, group_in_place_getLsbD v hk, checksum_in_place_getLsbD v _ hk]
  cases v.getLsbD k
  · simp only [Bool.and_false, Bool.or_self]
  · simp only [Bool.and_true, ← Bool.decide_or]
    exact (decide_eq_true (by omega)).symm

/-! ### The strings of a dictionary -/

theorem entryAt_mem {dict : List (List Byte)} (h : dict.length = 2048) (i : BitVec 11) : entryAt dict i ∈ dict :=
  List.mem_of_getElem? (getElem?_eq_entryAt h i)

/-- The text has the bytes of the six words and five spaces (rule R151). -/
theorem otpText_length (dict : List (List Byte)) (v : BitVec 64) :
    (otpText dict v).length = 5 + ((indices v).toList.map (fun i => (entryAt dict i).length)).sum := by
  simp only [otpText, Indices.toList, List.length_append, List.length_singleton, List.map_cons, List.map_nil,
    List.sum_cons, List.sum_nil]
  omega

/-- Settles O51: the words of a dictionary inside the model have one to four bytes. -/
theorem otpStringIsSixWordsAndFits : Obligations.OtpStringIsSixWordsAndFits := by
  unfold Obligations.OtpStringIsSixWordsAndFits
  intro dict v h
  obtain ⟨hwords, -⟩ := dictionary_contract h
  have hlen (i : BitVec 11) : 1 ≤ (entryAt dict.entries i).length ∧ (entryAt dict.entries i).length ≤ 4 := by
    obtain ⟨hlo, hhi, -⟩ := wordOk_iff.mp (hwords _ (entryAt_mem h i))
    exact ⟨hlo, hhi⟩
  refine ⟨otpString_eq_otpText h v, otpText_length _ v, ?_⟩
  rw [otpText_length]
  simp only [Indices.toList, List.map_cons, List.map_nil, List.sum_cons, List.sum_nil, Config.strMax]
  have h0 := hlen (indices v).idx0
  have h1 := hlen (indices v).idx1
  have h2 := hlen (indices v).idx2
  have h3 := hlen (indices v).idx3
  have h4 := hlen (indices v).idx4
  have h5 := hlen (indices v).idx5
  omega

/-- What rule R150 asks of a dictionary. -/
theorem dictOk_iff {dict : List (List Byte)} :
    dictOk dict = true ↔ dict.length = 2048 ∧ (∀ w ∈ dict, wordOk w = true) ∧ dict.Nodup := by
  simp [dictOk, and_assoc]

/-- A byte of the text is a space or stands in one of the words (rule R151). -/
theorem mem_otpText {dict : List (List Byte)} {v : BitVec 64} {b : Byte} (h : b ∈ otpText dict v) :
    b = 0x20#8 ∨ ∃ i, b ∈ entryAt dict i := by
  simp only [otpText, List.mem_append, List.mem_singleton] at h
  by_cases hb : b = 0x20#8
  · exact .inl hb
  · simp only [hb, or_false] at h
    obtain ((((h | h) | h) | h) | h) | h := h <;> exact .inr ⟨_, h⟩

/-- Settles O52: the entries are distinct, and each is a word as rule R150 asks it to be. -/
theorem wellFormedDictionaryIsABijection : Obligations.WellFormedDictionaryIsABijection := by
  unfold Obligations.WellFormedDictionaryIsABijection
  intro dict hd
  obtain ⟨hlen, hwords, hnodup⟩ := dictOk_iff.mp hd
  refine ⟨fun i j hij => ?_, fun i hnil => ?_, fun v b hb => ?_⟩
  · have hget : dict[i.toNat]? = dict[j.toNat]? := by
      rw [getElem?_eq_entryAt hlen, getElem?_eq_entryAt hlen, hij]
    exact BitVec.eq_of_toNat_eq ((List.getElem?_inj (hlen ▸ index_lt i) hnodup).mp hget)
  · obtain ⟨hlo, -⟩ := wordOk_iff.mp (hwords _ (entryAt_mem hlen i))
    rw [hnil] at hlo
    exact absurd hlo (by decide)
  · obtain rfl | ⟨i, hi⟩ := mem_otpText hb
    · decide
    · obtain ⟨-, -, hascii⟩ := wordOk_iff.mp (hwords _ (entryAt_mem hlen i))
      exact hascii b hi

end Sys2Proof.Machine
end

section
/-! PROOFS. Laws of the chain (rules R134, R138, R163): what a sequence of commands, each run to completion, leaves, and
`DERIVE` as two such sequences. -/

namespace Sys2Proof.Machine

/-! ### How each command completes -/

theorem completed_phase (s : State) (i : Instr) (w : Working) (nfold nrehash : Word) :
    (s.completed i w nfold nrehash).phase = .idle := phase_idle_iff.mpr ⟨rfl, rfl⟩

theorem hash0_completes {s : State} (h : s.phase = .idle) (hlen : lengthsFit s) (halg : selectorSupported s) :
    CompletesAs .hash0 s
      (s.completed .hash0 { s.work with digest := Config.digest s.req.alg (initialMessage s) } 0#32 0#32) := by
  obtain ⟨-, -, -, hok⟩ := hashZeroDigestsSeedAndPassphrase s h
  exact hok hlen halg

theorem xtr_completes {s : State} (h : s.phase = .idle) :
    CompletesAs .xtr s (s.completed .xtr { s.work with regs := extract s.work.digest } 0#32 0#32) := by
  obtain ⟨-, t, hok, rfl, -⟩ := extractorWritesTheFourRegisters s h
  exact hok

theorem fold_completes {s : State} (h : s.phase = .idle) :
    CompletesAs .fold s (s.completed .fold { s.work with fold := foldF s.work.regs } 1#32 0#32) := by
  obtain ⟨-, t, hok, rfl, -⟩ := folderWritesTheFold s h
  exact hok

theorem enc64_completes {s : State} (h : s.phase = .idle) :
    CompletesAs .enc64 s (s.completed .enc64 { s.work with value := enc64 s.work.fold } 0#32 0#32) := by
  obtain ⟨-, hok⟩ := longEncoderWritesTheValue s h
  exact hok

theorem chain_completes {s : State} {n : Nat} (h : s.phase = .idle) (hn : s.req.seq.toInt = n) (hlen : lengthsFit s)
    (halg : selectorSupported s) :
    CompletesAs .chain s
      (s.completed .chain (chainWork s.req.alg (initialMessage s) n s.work.value)
        (BitVec.ofNat 32 (n + 1)) (BitVec.ofNat 32 n)) := by
  obtain ⟨-, -, -, hok⟩ := chainComputesTheFoldOfTheSequence s h
  exact (hok n hn hlen halg).2

/-- One round of the chain by `STEP`: from the registers of round `n` to those of round `n + 1` (rules R130, R132). -/
theorem step_completes {s : State} {m0 : List Byte} {n : Nat} {value : BitVec 64} (h : s.phase = .idle)
    (halg : selectorSupported s) (hw : s.work = chainWork s.req.alg m0 n value) :
    CompletesAs .step s (s.completed .step (chainWork s.req.alg m0 (n + 1) value) 1#32 1#32) := by
  obtain ⟨-, -, hok⟩ := stepDoesOneRound s h
  have hstep := hok halg
  rw [hw] at hstep
  exact hstep

/-! ### `CHAIN` and `STEP` -/

theorem toInt_ofNat_of_lt {m : Nat} (h : m < 2 ^ 31) : (BitVec.ofNat 32 m).toInt = m := by
  have hm : (BitVec.ofNat 32 m).toNat = m := by rw [BitVec.toNat_ofNat, Nat.mod_eq_of_lt (by omega)]
  rw [BitVec.toInt_eq_toNat_of_lt (by omega), hm]

/-- Settles O53: `STEP` goes from the registers of round `n` to those of round `n + 1`, which `CHAIN` leaves too. -/
theorem chainThenStepIsTheNextChain : Obligations.ChainThenStepIsTheNextChain := by
  unfold Obligations.ChainThenStepIsTheNextChain
  rintro s s' n h hn hlt hlen halg rfl
  have hchain := chain_completes h hn hlen halg
  have hnext := chain_completes (s := { s with req := { s.req with seq := BitVec.ofNat 32 (n + 1) } }) (n := n + 1) h
    (toInt_ofNat_of_lt hlt) hlen halg
  have hstep := step_completes (s := s.completed .chain (chainWork s.req.alg (initialMessage s) n s.work.value) _ _)
    (completed_phase s .chain _ (BitVec.ofNat 32 (n + 1)) (BitVec.ofNat 32 n)) halg rfl
  exact ⟨_, _, ⟨_, hchain, _, hstep, rfl⟩, hnext, rfl, rfl, rfl⟩

/-- The message of two requests with the same lengths and the same bytes within them (rule R112). -/
theorem initialMessage_congr {s t : State} (hreq : s.req = t.req)
    (hseed : ∀ k < s.req.seedLen.toNat, Memory.read s.mem (0x100 + k) = Memory.read t.mem (0x100 + k))
    (hpass : ∀ k < s.req.passLen.toNat, Memory.read s.mem (0x200 + k) = Memory.read t.mem (0x200 + k)) :
    initialMessage s = initialMessage t := by
  rw [initialMessage, initialMessage, ← hreq]
  exact congrArg₂ (· ++ ·) (List.map_congr_left fun k hk => hseed k (List.mem_range.mp hk))
    (List.map_congr_left fun k hk => hpass k (List.mem_range.mp hk))

/-- Settles O54: the registers of the chain are a function of the selector, the message and the sequence number. -/
theorem chainDependsOnTheRequestAlone : Obligations.ChainDependsOnTheRequestAlone := by
  unfold Obligations.ChainDependsOnTheRequestAlone
  intro s t hs ht hreq hlenS hlenT halg hseq hseed hpass
  obtain ⟨n, hn⟩ := Int.eq_ofNat_of_zero_le hseq
  have halgT : selectorSupported t := by
    rw [selectorSupported, ← hreq]
    exact halg
  have hmsg := initialMessage_congr hreq hseed hpass
  refine ⟨_, _, chain_completes hs hn hlenS halg, chain_completes ht (hreq ▸ hn) hlenT halgT, ?_, ?_, ?_, rfl⟩ <;>
    rw [hmsg, hreq] <;> rfl

/-! ### Sequences of commands -/

theorem completeSeq_append {is js : List Instr} {s t u : State} (h : CompleteSeq is s t) (h' : CompleteSeq js t u) :
    CompleteSeq (is ++ js) s u := by
  induction is generalizing s with
  | nil =>
    obtain rfl : s = t := h
    exact h'
  | cons i is ih =>
    obtain ⟨m, hi, hm⟩ := h
    exact ⟨m, hi, ih hm⟩

/-- Two states with the same request: registers, buffers and configuration. -/
structure SameRequest (s p : State) : Prop where
  req : p.req = s.req
  mem : p.mem = s.mem
  cfg : p.cfg = s.cfg

theorem SameRequest.fits {s p : State} (h : SameRequest s p) (hs : lengthsFit s) : lengthsFit p := by
  unfold lengthsFit
  rwa [h.req, h.cfg]

theorem SameRequest.supported {s p : State} (h : SameRequest s p) (hs : selectorSupported s) :
    selectorSupported p := by
  unfold selectorSupported
  rwa [h.req]

theorem SameRequest.message {s p : State} (h : SameRequest s p) : initialMessage p = initialMessage s :=
  initialMessage_congr h.req (fun _ _ => by rw [h.mem]) fun _ _ => by rw [h.mem]

/-- The commands, run one after another from `s`, end in `IDLE` with these working registers, on the same request. -/
def Reaches (s : State) (is : List Instr) (w : Working) : Prop :=
  ∃ p, CompleteSeq is s p ∧ p.phase = .idle ∧ SameRequest s p ∧ p.work = w

theorem reaches_nil {s : State} (h : s.phase = .idle) : Reaches s [] s.work :=
  ⟨s, rfl, h, ⟨rfl, rfl, rfl⟩, rfl⟩

/-- One more command that writes working registers and counters alone. -/
theorem Reaches.snoc {s : State} {is : List Instr} {w w' : Working} {i : Instr}
    (h : Reaches s is w)
    (hi : ∀ p : State, p.phase = .idle → SameRequest s p → p.work = w →
      ∃ nfold nrehash, CompletesAs i p (p.completed i w' nfold nrehash)) : Reaches s (is ++ [i]) w' := by
  obtain ⟨p, hseq, hidle, hp, hwork⟩ := h
  obtain ⟨nfold, nrehash, hc⟩ := hi p hidle hp hwork
  exact ⟨_, completeSeq_append hseq ⟨_, hc, rfl⟩, completed_phase p i w' nfold nrehash,
    ⟨hp.req, hp.mem, hp.cfg⟩, rfl⟩

/-- `CHAIN` reaches the registers of round `n` (rule R131). -/
theorem reaches_chain {s : State} {n : Nat} (h : s.phase = .idle) (hn : s.req.seq.toInt = n) (hlen : lengthsFit s)
    (halg : selectorSupported s) :
    Reaches s [.chain] (chainWork s.req.alg (initialMessage s) n s.work.value) := by
  refine (reaches_nil h).snoc fun p hidle hp hwork => ?_
  rw [← hp.req] at hn
  rw [← hp.req, ← hp.message, ← hwork]
  exact ⟨_, _, chain_completes hidle hn (hp.fits hlen) (hp.supported halg)⟩

/-- `HASH0`, `XTR` and `FOLD` reach the registers of round 0 (rules R130, R163). -/
theorem reaches_roundZero {s : State} (h : s.phase = .idle) (hlen : lengthsFit s) (halg : selectorSupported s) :
    Reaches s [.hash0, .xtr, .fold] (chainWork s.req.alg (initialMessage s) 0 s.work.value) := by
  have hhash : Reaches s [.hash0] { s.work with digest := Config.digest s.req.alg (initialMessage s) } := by
    refine (reaches_nil h).snoc fun p hidle hp hwork => ?_
    rw [← hp.req, ← hp.message, ← hwork]
    exact ⟨_, _, hash0_completes hidle (hp.fits hlen) (hp.supported halg)⟩
  have hxtr := hhash.snoc fun p hidle _ hwork => ⟨_, _, hwork ▸ xtr_completes hidle⟩
  exact hxtr.snoc fun p hidle _ hwork => ⟨_, _, hwork ▸ fold_completes hidle⟩

/-- With `n` times `STEP` after them they reach the registers of round `n` (rules R130, R163). -/
theorem reaches_steps {s : State} (h : s.phase = .idle) (hlen : lengthsFit s) (halg : selectorSupported s) (n : Nat) :
    Reaches s ([.hash0, .xtr, .fold] ++ List.replicate n .step)
      (chainWork s.req.alg (initialMessage s) n s.work.value) := by
  induction n with
  | zero => exact reaches_roundZero h hlen halg
  | succ n ih =>
    rw [List.replicate_succ', ← List.append_assoc]
    refine ih.snoc fun p hidle hp hwork => ?_
    rw [← hp.req] at hwork ⊢
    exact ⟨_, _, step_completes hidle (hp.supported halg) hwork⟩

/-! ### The encoding of the value -/

/-- What the Word Encoder leaves is a function of the value: two states that hold the encoding of the same `VALUE`, with
the same working registers and the same bytes outside `OTPSTR`. -/
theorem sameResults_of_holdsOtp {t u : State} (hwork : t.work = u.work) (hcfg : t.cfg = u.cfg)
    (ht : t.holdsOtp t.work.value) (hu : u.holdsOtp u.work.value)
    (hread : ∀ a, ¬ (otpBase ≤ a ∧ a < otpBase + Config.strMax) → Memory.read t.mem a = Memory.read u.mem a) :
    SameResults t u := by
  obtain ⟨htenc, htstr⟩ := ht
  obtain ⟨huenc, hustr⟩ := hu
  rw [hwork, hcfg] at htenc htstr
  refine ⟨hwork, htenc.trans huenc.symm, fun a => ?_⟩
  by_cases ha : otpBase ≤ a ∧ a < otpBase + Config.strMax
  · obtain ⟨k, rfl⟩ := Nat.exists_eq_add_of_le ha.1
    have hk : k < Config.strMax := Nat.lt_of_add_lt_add_left ha.2
    rw [htstr k hk, hustr k hk]
  · exact hread a ha

/-- `ENC64` and `WENC` after a sequence: the number of its fold, and that number's encoding (rules R141, R152). -/
theorem Reaches.encode {s : State} {is : List Instr} {w : Working} (h : Reaches s is w) (hm : Memory.wf s.mem = true)
    (hd : s.cfg.dict.entries.length = 2048) :
    ∃ u, CompleteSeq (is ++ [.enc64, .wenc]) s u ∧ u.work = { w with value := enc64 w.fold } ∧ u.cfg = s.cfg ∧
      u.holdsOtp u.work.value ∧
      ∀ a, ¬ (otpBase ≤ a ∧ a < otpBase + Config.strMax) → Memory.read u.mem a = Memory.read s.mem a := by
  obtain ⟨p, hseq, hidle, hp, hwork⟩ := h.snoc fun p hidle _ hwork => ⟨_, _, hwork ▸ enc64_completes hidle⟩
  obtain ⟨-, -, hok⟩ := wordEncoderWritesTheSixWords p hidle (hp.mem ▸ hm)
  obtain ⟨u, hu, -, -, huwork, hucfg, -, hotp, -, -, hread⟩ := hok (hp.cfg ▸ hd)
  have hall : CompleteSeq (is ++ [.enc64] ++ [.wenc]) s u := completeSeq_append hseq ⟨u, hu, rfl⟩
  rw [List.append_assoc] at hall
  refine ⟨u, hall, huwork.trans hwork, hucfg.trans hp.cfg, huwork ▸ hotp, fun a ha => ?_⟩
  rw [hread a ha, hp.mem]

/-- Settles O55: both sequences reach the registers of round `n`, and `ENC64` and `WENC` then do what `DERIVE` does with
them. -/
theorem deriveEqualsItsComponents : Obligations.DeriveEqualsItsComponents := by
  unfold Obligations.DeriveEqualsItsComponents
  intro s n h hm hn hlen halg hd
  obtain ⟨-, -, -, -, hderive⟩ := deriveComposesTheWholeDerivation s h hm
  obtain ⟨t, ht, -, -, htcfg, htwork, htotp, -, -, -, htread⟩ := hderive n hn hlen halg hd
  obtain ⟨u, hu, huwork, hucfg, huotp, huread⟩ := (reaches_chain h hn hlen halg).encode hm hd
  obtain ⟨v, hv, hvwork, hvcfg, hvotp, hvread⟩ := (reaches_steps h hlen halg n).encode hm hd
  refine ⟨t, u, v, ht, hu, hv, ?_, ?_⟩
  · exact sameResults_of_holdsOtp (htwork.trans huwork.symm) (htcfg.trans hucfg.symm) htotp huotp
      fun a ha => (htread a ha).trans (huread a ha).symm
  · exact sameResults_of_holdsOtp (htwork.trans hvwork.symm) (htcfg.trans hvcfg.symm) htotp hvotp
      fun a ha => (htread a ha).trans (hvread a ha).symm

end Sys2Proof.Machine
end
